-- ==== Sys2Proof/Word.lean ====
section
/-! DEFINITION. The word types of the block (00_scope.md R9: every value is unsigned). -/

namespace Sys2Proof

/-- A 32-bit value: `u32` of 00_scope.md R9; also the width of the bus data and of a command word. -/
abbrev Word := BitVec 32

/-- An 8-bit value: `u8` of 00_scope.md R9; the smallest addressable unit. -/
abbrev Byte := BitVec 8

/-- A byte offset inside the block's 4 KiB window (20_memory.md R61). -/
abbrev Offset := BitVec 12

end Sys2Proof
end

