-- ==== Sys2Proof/Config.lean ====
section
/-! DEFINITION. What a build of the block fixes (00_scope.md R8), and the free values: what the spec leaves open, as constants
without a body. -/

namespace Sys2Proof.Config

/-- `ZERO_STOP`: 1 in this hardware (R8, D5). Every shared operation takes it as an argument (log 12). -/
def zeroStop : Bool := true

/-- `FRAME_SIZE` (R8). -/
abbrev frameSize : Nat := 574

/-- `HDR_LEN`, the bytes before the payload (R8). -/
abbrev hdrLen : Nat := 62

/-- `PAYLOAD_CAP`, the payload field's size (R8). -/
abbrev payloadCap : Nat := 512

/-- `PAYLOAD_CHARS`, the longest payload text that can be encoded (R8). -/
abbrev payloadChars : Nat := 511

/-- `ADDR_FIELD`, the size of one address field (R8). -/
abbrev addrField : Nat := 18

/-- `ADDR_CHARS`, its usable characters (R8). -/
abbrev addrChars : Nat := 17

/-- The identification constant (10_state.md R22). -/
def idValue : Word := 0x46435331

/-- `BASE`, where the platform puts the window: OPEN (20_memory.md R69, I19; log 15). -/
opaque base : Nat

/-- FREE VALUE: what a buffer byte that nothing has written since power-on holds, by its offset
(70_reset_and_hazards.md R271, I11; log 4). -/
opaque powerOnByte : Nat → Byte

/-- FREE VALUE: the data a read of an unspecified location returns while a command is pending, fresh at each draw
(R281, I12; log 5). -/
opaque busyRead : Nat → Word

/-- FREE VALUE: whether an aborted command's byte holds the value the command would have given it (true) or its value
before the command (false), by draw and byte offset (R273, I13; log 6). -/
opaque abortTakesNew : Nat → Nat → Bool

end Sys2Proof.Config
end

