-- ==== Sys2Proof/Syntax.lean ====
section
/-! DEFINITION. The commands of the block (30_encoding.md R93), one constructor a row of the opcode table, and the assembler
lines of R95. -/

namespace Sys2Proof

/-- A command. Operand widths are the field widths of 30_encoding.md R92. -/
inductive Instr where
  /-- `NOP` (42_system.md R220). -/
  | nop
  /-- `CK.INIT` (40_checksum.md R140). -/
  | ckInit
  /-- `CK.FEED byte` (R145). -/
  | ckFeed (byte : BitVec 8)
  /-- `CK.SPAN start, len` (R150). -/
  | ckSpan (start len : BitVec 10)
  /-- `FR.CLEAR` (41_frame_codec.md R176). -/
  | frClear
  /-- `FR.ENCODE` (R180). -/
  | frEncode
  /-- `FR.SEAL` (R185). -/
  | frSeal
  /-- `FR.DECODE rxlen` (R190). -/
  | frDecode (rxlen : BitVec 16)
  deriving DecidableEq, Repr

/-- One assembler line, operands as the numbers written (R95); the last three are the pseudo-instructions. The text itself
(digits, spelling) is not modelled (log 17). -/
inductive AsmLine where
  | nop
  | ckInit
  | ckFeed (byte : Nat)
  | ckSpan (start len : Nat)
  | frClear
  | frEncode
  | frSeal
  | frDecode (rxlen : Nat)
  /-- `CK.STR "s"`, the string given as its character codes. -/
  | ckStr (chars : List Byte)
  /-- `CK.HASH start, len`. -/
  | ckHash (start len : Nat)
  /-- `FR.RECV`. -/
  | frRecv
  deriving DecidableEq, Repr

end Sys2Proof
end

