-- ==== Sys2Proof/WellFormed.lean ====
section
/-! DEFINITION. The operand check a command must pass to be accepted. -/

namespace Sys2Proof

/-- Only `CK.SPAN` has a range check: `START + LEN <= 574` (30_encoding.md R92, R96; 60_exceptions.md R243). Every other
operand value that its field holds is accepted. -/
def Instr.wf : Instr → Bool
  | .nop => true
  | .ckInit => true
  | .ckFeed _ => true
  | .ckSpan start len => decide (start.toNat + len.toNat ≤ Config.frameSize)
  | .frClear => true
  | .frEncode => true
  | .frSeal => true
  | .frDecode _ => true

end Sys2Proof
end

