-- ==== Sys2Proof/Decode.lean ====
section
/-! DEFINITION. Command words: the decoder (30_encoding.md R90 to R94), the encoder (R91) and the assembler (R95). -/

namespace Sys2Proof

/-- `BYTE = cmd[15:8]` (R92). -/
def fieldByte (w : Word) : BitVec 8 := w.extractLsb' 8 8

/-- `START = cmd[17:8]` (R92). -/
def fieldStart (w : Word) : BitVec 10 := w.extractLsb' 8 10

/-- `LEN = cmd[27:18]` (R92). -/
def fieldLen (w : Word) : BitVec 10 := w.extractLsb' 18 10

/-- `RXLEN = cmd[31:16]` (R92). -/
def fieldRxlen (w : Word) : BitVec 16 := w.extractLsb' 16 16

/-- `OP`, bits 7:0 of every format (R91). -/
def fieldOp (w : Word) : BitVec 8 := w.extractLsb' 0 8

/-- A row of the opcode map (R93): its match and mask words, and the command its fields build. -/
structure OpcodeRow where
  matchWord : Word
  mask : Word
  build : Word → Instr

/-- A word selects a row when `(w & mask) == match` (R93). -/
def OpcodeRow.selects (r : OpcodeRow) (w : Word) : Bool := w &&& r.mask == r.matchWord

/-- The opcode map (R93), in its order. -/
def opcodeMap : List OpcodeRow :=
  [ ⟨0x00000000, 0xFFFFFFFF, fun _ => .nop⟩,
    ⟨0x00000001, 0xFFFFFFFF, fun _ => .ckInit⟩,
    ⟨0x00000002, 0xFFFF00FF, fun w => .ckFeed (fieldByte w)⟩,
    ⟨0x00000003, 0xF00000FF, fun w => .ckSpan (fieldStart w) (fieldLen w)⟩,
    ⟨0x00000010, 0xFFFFFFFF, fun _ => .frClear⟩,
    ⟨0x00000011, 0xFFFFFFFF, fun _ => .frEncode⟩,
    ⟨0x00000012, 0xFFFFFFFF, fun _ => .frSeal⟩,
    ⟨0x00000013, 0x0000FFFF, fun w => .frDecode (fieldRxlen w)⟩ ]

/-- Why a word is illegal (R94). -/
inductive DecodeError where
  /-- `OP` is unallocated: 0x04 to 0x0F, 0x14 to 0xFF. -/
  | unallocatedOpcode
  /-- `OP` is allocated and a must-be-zero bit of its format is 1. -/
  | mustBeZeroBit
  deriving DecidableEq, Repr

/-- The opcodes of R93. -/
def opAllocated (op : BitVec 8) : Bool := opcodeMap.any fun r => fieldOp r.matchWord == op

/-- The command a word stands for, or why it is illegal (R93, R94). -/
def decode (w : Word) : Except DecodeError Instr :=
  match opcodeMap.find? fun r => r.selects w with
  | some r => .ok (r.build w)
  | none => .error (if opAllocated (fieldOp w) then .mustBeZeroBit else .unallocatedOpcode)

/-- Format N: `OP` in bits 7:0, the rest 0 (R91). -/
def formatN (op : BitVec 8) : Word := op.setWidth 32

/-- Format B: `BYTE` in bits 15:8 (R91). -/
def formatB (byte op : BitVec 8) : Word := byte.setWidth 32 <<< 8 ||| op.setWidth 32

/-- Format S: `LEN` in bits 27:18, `START` in bits 17:8 (R91). -/
def formatS (len start : BitVec 10) (op : BitVec 8) : Word :=
  len.setWidth 32 <<< 18 ||| start.setWidth 32 <<< 8 ||| op.setWidth 32

/-- Format L: `RXLEN` in bits 31:16 (R91). -/
def formatL (rxlen : BitVec 16) (op : BitVec 8) : Word := rxlen.setWidth 32 <<< 16 ||| op.setWidth 32

/-- `enc`: the word of a command (R91, R95). -/
def encode : Instr → Word
  | .nop => formatN 0x00
  | .ckInit => formatN 0x01
  | .ckFeed byte => formatB byte 0x02
  | .ckSpan start len => formatS len start 0x03
  | .frClear => formatN 0x10
  | .frEncode => formatN 0x11
  | .frSeal => formatN 0x12
  | .frDecode rxlen => formatL rxlen 0x13

/-- The decoder on a row's word as spec/opcode_table.json numbers its bits: the low `nbits` bits of `w`, the rest zero. A
command is one 32-bit value written to `CMD`, so there is no byte layout to choose (R90). -/
def decodeTableWord (nbits w : Nat) : Option Instr :=
  match decode (BitVec.ofNat 32 (w % 2 ^ nbits)) with
  | .ok i => some i
  | .error _ => none

/-- A written number as an operand field of `n` bits: "An assembler refuses an operand outside its field width" (R95). -/
def asmOperand (n v : Nat) : Option (BitVec n) := if v < 2 ^ n then some (BitVec.ofNat n v) else none

/-- The command a `CK.SPAN` line assembles to. -/
def asmSpan (start len : Nat) : Option Instr :=
  match asmOperand 10 start, asmOperand 10 len with
  | some s, some l => some (.ckSpan s l)
  | _, _ => none

/-- The commands an assembler line expands to, or none where an operand does not fit (R95). -/
def assemble : AsmLine → Option (List Instr)
  | .nop => some [.nop]
  | .ckInit => some [.ckInit]
  | .ckFeed byte => (asmOperand 8 byte).map fun b => [.ckFeed b]
  | .ckSpan start len => (asmSpan start len).map fun i => [i]
  | .frClear => some [.frClear]
  | .frEncode => some [.frEncode]
  | .frSeal => some [.frSeal]
  | .frDecode rxlen => (asmOperand 16 rxlen).map fun n => [.frDecode n]
  | .ckStr chars => some (chars.map .ckFeed)
  | .ckHash start len => (asmSpan start len).map fun i => [.ckInit, i]
  | .frRecv => some [.frDecode 574]

end Sys2Proof
end

