-- ==== Sys2Proof/Machine/State.lean ====
section
/-! DEFINITION. The block's state (10_state.md R20), the host's accesses, why a step can stop, and the state after power-on
reset (70_reset_and_hazards.md R270, R271). -/

namespace Sys2Proof.Machine

/-- The checksum engine's state, the triple `(ACC, TERM, CNT)` (40_checksum.md R132). -/
@[ext]
structure Engine where
  /-- `ACC` (10_state.md R31). -/
  acc : Word
  /-- `TERM`, shown as `STATUS.TERM` (R26). -/
  term : Bool
  /-- `CNT` (R33). -/
  cnt : Word
  deriving DecidableEq, Repr

/-- The codes of `STATUS.RESULT` (10_state.md R28); codes 8 to 15 are never produced (I14). -/
inductive ResultCode where
  | none
  | okAssoc
  | okProbe
  | okRts
  | okData
  | errType
  | errFcs
  | empty
  deriving DecidableEq, Repr

/-- The frame types (30_encoding.md R102). -/
inductive FrameType where
  | association
  | probe
  | rts
  | data
  /-- The catch-all for the other 252 type bytes. -/
  | invalid
  deriving DecidableEq, Repr

/-- The error causes (60_exceptions.md R241). -/
inductive ErrorBit where
  | cmd
  | range
  | busy
  | bus
  deriving DecidableEq, Repr

/-- What an access does. -/
inductive BusOp where
  | read
  /-- The data bits; an access wider than 32 bits is illegal, so what it would carry beyond them never acts. -/
  | write (v : Word)
  deriving DecidableEq, Repr

/-- One bus access of the host: a byte offset in the window, a size in bytes (any number: R64 says which are legal). -/
structure Access where
  offset : Offset
  size : Nat
  op : BusOp
  deriving DecidableEq, Repr

/-- The two agents' turns (00_scope.md R7). -/
inductive Turn where
  /-- The host makes one access. -/
  | host (a : Access)
  /-- The engine steps: it completes the pending command, if there is one. -/
  | engine
  deriving DecidableEq, Repr

/-- What the bus returns for one access (20_memory.md R65): the data of a read, and whether it is an error response. -/
structure BusResponse where
  data : Option Word
  error : Bool
  deriving DecidableEq, Repr

/-- The frame buffer's written bytes by buffer offset, offsets strictly rising. An offset that is not listed has not been
written since power-on (70_reset_and_hazards.md R271; log 4). -/
abbrev Memory := List Host.Cell

/-- The state: the spec's (10_state.md R20), then three fields of the model's own. -/
@[ext]
structure State where
  /-- `ACC`, `TERM`, `CNT` (R26, R31, R33). -/
  eng : Engine
  /-- `CALC` (R34). -/
  calcReg : Word
  /-- `RXFCS` (R35). -/
  rxfcs : Word
  /-- `PLEN` bits 9:0 (R36). -/
  plen : BitVec 10
  /-- `STATUS.SHORT` (R27). -/
  short : Bool
  /-- `STATUS.LONG` (R27). -/
  long : Bool
  /-- `STATUS.RESULT` (R28). -/
  result : ResultCode
  /-- `STATUS.ERR_CMD` (R29). -/
  errCmd : Bool
  /-- `STATUS.ERR_RANGE` (R29). -/
  errRange : Bool
  /-- `STATUS.ERR_BUSY` (R29). -/
  errBusy : Bool
  /-- `STATUS.ERR_BUS` (R29). -/
  errBus : Bool
  /-- `PEND` (R41), none when no command is pending; `STATUS.BUSY` is whether it holds a word (R25; log 8). -/
  pend : Option Word
  /-- `buf` (20_memory.md R60). -/
  buf : Memory
  /-- The MODEL's own: the turns to come, the host's accesses among them; none left is the engine's turn (log 1). -/
  agenda : List Turn
  /-- The MODEL's own: the response to the last access (log 3). -/
  resp : Option BusResponse
  /-- The MODEL's own: how many free values have been drawn (log 7). -/
  draws : Nat
  deriving DecidableEq, Repr

/-- Why the machine stops. The block itself "never traps, halts or stops accepting accesses" (60_exceptions.md R240). -/
inductive Fault where
  /-- Raised by the engine's turn when `PEND` holds a word that matches no row of the opcode map. SAFE: no run reaches it
  (the issue rule accepts no such word, 30_encoding.md R96), and the spec gives such a state no meaning (log 10). -/
  | pendingIllegal
  deriving DecidableEq, Repr

/-- Why an instruction has no meaning. -/
inductive Refusal where
  /-- Raised by an arm of `exec` whose instruction has no meaning yet; there is none. SAFE. -/
  | notModelled (mnemonic : String)
  deriving DecidableEq, Repr

/-- The state after power-on reset: every register 0, no error, no command pending (R270), no buffer byte written (R271);
the model's own fields empty (DESIGN CHOICE, log 1, 3, 7). -/
def State.reset : State where
  eng := ⟨0, false, 0⟩
  calcReg := 0
  rxfcs := 0
  plen := 0
  short := false
  long := false
  result := .none
  errCmd := false
  errRange := false
  errBusy := false
  errBus := false
  pend := none
  buf := []
  agenda := []
  resp := none
  draws := 0

end Sys2Proof.Machine
end

