-- ==== Sys2Proof/Machine/Flags.lean ====
section
/-! DEFINITION. `STATUS` (10_state.md R24 to R29): its word, raising and clearing the sticky errors, the result codes. -/

namespace Sys2Proof.Machine

/-- `STATUS.BUSY`: 1 exactly while a command is pending (R25). -/
def State.busy (s : State) : Bool := s.pend.isSome

/-- The number of a result code (R28). -/
def ResultCode.code : ResultCode → BitVec 4
  | .none => 0
  | .okAssoc => 1
  | .okProbe => 2
  | .okRts => 3
  | .okData => 4
  | .errType => 5
  | .errFcs => 6
  | .empty => 7

/-- The text the host sends for a code, none where it sends nothing (41_frame_codec.md R200, 10_state.md R28). -/
def ResultCode.responseText : ResultCode → Option String
  | .none => Option.none
  | .okAssoc => some "Association Response: Accepted"
  | .okProbe => some "Probe Response: Accepted"
  | .okRts => some "CTS"
  | .okData => some "ACK"
  | .errType => some "Error: Invalid Frame Type"
  | .errFcs => some "Error: FCS Mismatch"
  | .empty => Option.none

/-- One bit of a word, at a bit number. -/
def flagAt (b : Bool) (k : Nat) : Word := (BitVec.ofBool b).setWidth 32 <<< k

/-- The `STATUS` word (R24), field by field; bits 31:12 read 0. -/
def statusWord (s : State) : Word :=
  flagAt s.busy 0 ||| flagAt s.eng.term 1 ||| flagAt s.short 2 ||| flagAt s.long 3 ||| s.result.code.setWidth 32 <<< 4
    ||| flagAt s.errCmd 8 ||| flagAt s.errRange 9 ||| flagAt s.errBusy 10 ||| flagAt s.errBus 11

/-- An error's code, its `STATUS` bit number (60_exceptions.md R241). -/
def ErrorBit.bit : ErrorBit → Nat
  | .cmd => 8
  | .range => 9
  | .busy => 10
  | .bus => 11

/-- `raise ERR_X()`: sets the sticky bit and nothing else (00_scope.md R10, 60_exceptions.md R240). This is all the block
has of taking an exception (R250). -/
def State.raise (s : State) : ErrorBit → State
  | .cmd => { s with errCmd := true }
  | .range => { s with errRange := true }
  | .busy => { s with errBusy := true }
  | .bus => { s with errBus := true }

/-- A `STATUS` write: clears exactly the error bits written as 1 (42_system.md R223, 10_state.md R29). This is all the block
has of a return from an exception (R251). -/
def State.clearErrors (s : State) (v : Word) : State :=
  { s with
    errCmd := s.errCmd && !v.getLsbD 8
    errRange := s.errRange && !v.getLsbD 9
    errBusy := s.errBusy && !v.getLsbD 10
    errBus := s.errBus && !v.getLsbD 11 }

end Sys2Proof.Machine
end

