-- ==== Sys2Proof/Machine/Operands.lean ====
section
/-! DEFINITION. What an access and a frame byte name: the window's address map (20_memory.md R61, R69), the legal sizes and
alignments (R64), the frame's fields (30_encoding.md R100) and types (R102). -/

namespace Sys2Proof.Machine

/-- The registers of 10_state.md R20. -/
inductive Reg where
  | id | ctrl | status | cmd | acc | digest | cnt | calcReg | rxfcs | plen | param
  deriving DecidableEq, Repr

/-- What an offset of the window reaches. -/
inductive Target where
  | reg (r : Reg)
  /-- The frame window, by its offset from 0x400: `buf`, and beyond byte 573 the RAZ/WI tail. -/
  | frame (k : Nat)
  /-- Reserved offsets, RAZ/WI (10_state.md R38). -/
  | reserved
  deriving DecidableEq, Repr

/-- The register at a window offset (10_state.md R20). -/
def regAt (a : Nat) : Option Reg :=
  if a = 0x000 then some .id
  else if a = 0x004 then some .ctrl
  else if a = 0x008 then some .status
  else if a = 0x00C then some .cmd
  else if a = 0x010 then some .acc
  else if a = 0x014 then some .digest
  else if a = 0x018 then some .cnt
  else if a = 0x01C then some .calcReg
  else if a = 0x020 then some .rxfcs
  else if a = 0x024 then some .plen
  else if a = 0x028 then some .param
  else none

/-- Whether an offset lies in the frame window 0x400 to 0x7FF (20_memory.md R61). -/
def inFrameWindow (a : Offset) : Bool := decide (0x400 ≤ a.toNat) && decide (a.toNat < 0x800)

/-- The address map (R61; 10_state.md R20, R38). -/
def targetAt (a : Offset) : Target :=
  if inFrameWindow a then .frame (a.toNat - 0x400)
  else
    match regAt a.toNat with
    | some r => .reg r
    | none => .reserved

/-- The legal accesses (20_memory.md R64). -/
def Access.legal (a : Access) : Bool :=
  if inFrameWindow a.offset then
    a.size == 1 || (a.size == 2 && a.offset.toNat % 2 == 0) || (a.size == 4 && a.offset.toNat % 4 == 0)
  else a.size == 4 && a.offset.toNat % 4 == 0

/-- Where a host address falls in the window, none outside it: `BASE` is the platform's (R69; log 15). -/
def windowOffset (addr : Nat) : Option Offset :=
  if Config.base ≤ addr ∧ addr < Config.base + 4096 then some (BitVec.ofNat 12 (addr - Config.base)) else none

/-- Frame field offsets (30_encoding.md R100). -/
abbrev typeOff : Nat := 0
abbrev subtypeOff : Nat := 1
abbrev durationOff : Nat := 2
abbrev address1Off : Nat := 4
abbrev address2Off : Nat := 22
abbrev address3Off : Nat := 40
abbrev integrityOff : Nat := 58
abbrev payloadOff : Nat := 62

/-- The frame type a type byte encodes (R102). -/
def frameTypeOf (b : Byte) : FrameType :=
  if b = 0x00 then .association
  else if b = 0x01 then .probe
  else if b = 0x02 then .rts
  else if b = 0x10 then .data
  else .invalid

/-- `code(t)` of a valid type, none for an invalid one (41_frame_codec.md R190; 10_state.md R28). -/
def okCode : FrameType → Option ResultCode
  | .association => some .okAssoc
  | .probe => some .okProbe
  | .rts => some .okRts
  | .data => some .okData
  | .invalid => none

/-- `W32 off, v` of the host notation (30_encoding.md R95). -/
def w32 (off : Offset) (v : Word) : Turn := .host ⟨off, 4, .write v⟩

/-- `W16 off, v` (R95). -/
def w16 (off : Offset) (v : Word) : Turn := .host ⟨off, 2, .write v⟩

/-- `W8 off, v` (R95). -/
def w8 (off : Offset) (v : Word) : Turn := .host ⟨off, 1, .write v⟩

/-- `R32 off` (R95). -/
def r32 (off : Offset) : Turn := .host ⟨off, 4, .read⟩

end Sys2Proof.Machine
end

