-- ==== Sys2Proof/Machine/Ops.lean ====
section
/-! DEFINITION. The shared operations: the frame buffer (00_scope.md R10, 20_memory.md), the checksum engine (40_checksum.md
part 1), the frame digest and the frame operations' parts (41_frame_codec.md). `zs` is the build parameter `ZERO_STOP`. -/

namespace Sys2Proof.Machine

/-! ### The frame buffer -/

/-- The canonical form of the buffer: offsets inside it, strictly rising. An unlisted offset reads as no value (not written
since power-on), so no entry equals what an unlisted one reads as. -/
def Memory.wf (m : Memory) : Bool :=
  decide (m.Pairwise fun c d => c.1 < d.1) && m.all fun c => decide (c.1 < Config.frameSize)

/-- The byte written at an offset, none if nothing has been. -/
def Memory.written (m : Memory) (a : Nat) : Option Byte := (m.find? fun c => c.1 == a).map fun c => c.2

/-- `buf[a]`: a byte nothing has written since power-on is unspecified (70_reset_and_hazards.md R271; log 4). -/
def Memory.read (m : Memory) (a : Nat) : Byte := (m.written a).getD (Config.powerOnByte a)

/-- `buf[start + k] <- bs[k]` for every `k`. -/
def Memory.put (m : Memory) (start : Nat) (bs : List Byte) : Memory :=
  if bs = [] then m
  else
    (m.filter fun c => decide (c.1 < start)) ++ (List.range bs.length).map (fun k => (start + k, bs.getD k 0))
      ++ m.filter fun c => decide (start + bs.length ≤ c.1)

/-- `for i in start .. start+n-1: buf[i] <- 0`. -/
def Memory.zero (m : Memory) (start n : Nat) : Memory := m.put start (List.replicate n 0)

/-- `[buf[off], ..., buf[off + n - 1]]`. -/
def Memory.bytes (m : Memory) (off n : Nat) : List Byte := (List.range n).map fun k => m.read (off + k)

/-- The byte at offset `i` of the frame window: the tail beyond the buffer reads 0 (20_memory.md R66, 10_state.md R38). -/
def windowByte (m : Memory) (i : Nat) : Byte := if i < Config.frameSize then m.read i else 0

/-- The little-endian value of a byte string (R62). -/
def leValue : List Byte → Word
  | [] => 0
  | b :: bs => leValue bs <<< 8 ||| b.setWidth 32

/-- The `n` low bytes of a value, lowest first (R62). -/
def leBytes (n : Nat) (v : Word) : List Byte := (List.range n).map fun k => v.extractLsb' (8 * k) 8

/-- `MemRead(off, n)` (00_scope.md R10), with the tail of R66. -/
def memRead (m : Memory) (off n : Nat) : Word := leValue ((List.range n).map fun k => windowByte m (off + k))

/-- `MemWrite(off, n, v)` (00_scope.md R10); the bytes beyond the buffer are ignored (20_memory.md R66). -/
def memWrite (m : Memory) (off n : Nat) (v : Word) : Memory :=
  m.put off ((leBytes n v).take (Config.frameSize - off))

/-- `strnlen(off, max)` (00_scope.md R10): the bytes before the first zero, at most `max`. -/
def strnlen (m : Memory) (off max : Nat) : Nat := ((m.bytes off max).takeWhile fun b => b != 0).length

/-- The buffer after an abort: each byte as in `new` where `pick` says so, else as in `old` (70_reset_and_hazards.md R273). -/
def blend (pick : Nat → Bool) (old new : Memory) : Memory :=
  (List.range Config.frameSize).filterMap fun i => ((if pick i then new else old).written i).map fun b => (i, b)

/-! ### The checksum engine -/

/-- The per-byte mixing step (40_checksum.md R130): the byte is added zero-extended (R136). -/
def mix (a : Word) (b : Byte) : Word :=
  let a := a + b.setWidth 32
  let a := a + a <<< 10
  a ^^^ a >>> 6

/-- The finalisation (R131). -/
def fin (a : Word) : Word :=
  let a := a + a <<< 3
  let a := a ^^^ a >>> 11
  a + a <<< 15

/-- The initial engine state (R133). -/
def Engine.init : Engine := ⟨0, false, 0⟩

/-- `step(b)`: offering one byte (R132). -/
def Engine.offer (zs : Bool) (e : Engine) (b : Byte) : Engine :=
  if e.term then e
  else if zs && b == 0 then { e with term := true }
  else { e with acc := mix e.acc b, cnt := e.cnt + 1 }

/-- `feed(s)` (R133). -/
def Engine.feed (zs : Bool) (e : Engine) (bs : List Byte) : Engine := bs.foldl (Engine.offer zs) e

/-- The digest, `fin(ACC)` (10_state.md R32). -/
def Engine.digest (e : Engine) : Word := fin e.acc

/-- `checksum(s)` (R134). -/
def checksum (zs : Bool) (bs : List Byte) : Word := (Engine.init.feed zs bs).digest

/-! ### The frame -/

/-- `PayloadLen(buf)` (30_encoding.md R107). -/
def payloadLen (m : Memory) : Nat :=
  if m.read typeOff = 0x10 then strnlen m payloadOff Config.payloadCap else 0

/-- The hashed span (41_frame_codec.md R171): the integrity bytes 58 to 61 are taken as zero. -/
def hashedSpan (m : Memory) : List Byte :=
  (List.range (Config.hdrLen + payloadLen m)).map fun i => if 58 ≤ i ∧ i ≤ 61 then 0 else m.read i

/-- The engine state `FrameDigest()` leaves (R172). -/
def digestEngine (zs : Bool) (m : Memory) : Engine := Engine.init.feed zs (hashedSpan m)

/-- The digest `FrameDigest()` returns (R172). -/
def frameDigest (zs : Bool) (m : Memory) : Word := (digestEngine zs m).digest

/-- One address field in canonical form: zeros from the first zero on, byte 17 at the latest (R180). -/
def canonAddress (m : Memory) (base : Nat) : Memory :=
  let n := strnlen m base Config.addrChars
  m.zero (base + n) (Config.addrField - n)

/-- The payload field in canonical form: cut at 511 characters for a Data frame, empty for any other (R180). -/
def canonPayload (m : Memory) : Memory :=
  if m.read typeOff = 0x10 then
    let n := strnlen m payloadOff Config.payloadChars
    m.zero (payloadOff + n) (Config.payloadCap - n)
  else m.zero payloadOff Config.payloadCap

/-- The part of `FR.ENCODE` before the digest (R180): subtype and duration_id zeroed, the three addresses and the payload
in canonical form. -/
def canonFrame (m : Memory) : Memory :=
  canonPayload (canonAddress (canonAddress (canonAddress (m.zero subtypeOff 3) address1Off) address2Off) address3Off)

/-- `FR.DECODE`'s zero fill: the bytes not received read as zero (R190). -/
def zeroFill (rxlen : Nat) (m : Memory) : Memory := m.zero rxlen (Config.frameSize - rxlen)

/-! ### Parts of commands -/

/-- "Every command's last action is `STATUS.BUSY <- 0`" (40_checksum.md part 2; 10_state.md R25). -/
def State.complete (s : State) : State := { s with pend := none }

/-- The frame digest's effect on the engine, `CALC` and `PLEN`, common to `FR.ENCODE`, `FR.SEAL` and `FR.DECODE`
(41_frame_codec.md R170, R172; 10_state.md R34, R36). -/
def State.takeDigest (zs : Bool) (s : State) : State :=
  { s with
    eng := digestEngine zs s.buf
    calcReg := frameDigest zs s.buf
    plen := BitVec.ofNat 10 (payloadLen s.buf) }

/-- `FR.SEAL` (R185), which is also the end of `FR.ENCODE` (R180). -/
def State.seal (zs : Bool) (s : State) : State :=
  { s.takeDigest zs with buf := memWrite s.buf integrityOff 4 (frameDigest zs s.buf) }

/-- `FR.ENCODE` (R180). -/
def State.encodeFrame (zs : Bool) (s : State) : State := State.seal zs { s with buf := canonFrame s.buf }

/-- `FR.DECODE`'s two checks, on the buffer after the zero fill: type, then integrity (R190, R191). -/
def State.validate (zs : Bool) (s : State) : State :=
  match okCode (frameTypeOf (s.buf.read typeOff)) with
  | none => { s with result := .errType }
  | some ok =>
    let rx := memRead s.buf integrityOff 4
    { s.takeDigest zs with
      rxfcs := rx
      result := if frameDigest zs s.buf = rx then ok else .errFcs }

/-- `FR.DECODE rxlen` (R190). -/
def State.decodeFrame (zs : Bool) (rxlen : Nat) (s : State) : State :=
  if rxlen = 0 then { s with short := false, long := false, result := .empty }
  else
    State.validate zs
      { s with
        short := decide (rxlen < Config.frameSize)
        long := decide (Config.frameSize < rxlen)
        buf := zeroFill rxlen s.buf }

end Sys2Proof.Machine
end

