-- ==== Sys2Proof/Machine/Checksum.lean ====
section
/-! DEFINITION. The checksum engine commands (40_checksum.md part 2). -/

namespace Sys2Proof.Machine

/-- `CK.INIT` (R140). -/
def execCkInit (s : State) : Host.Outcome State Fault Refusal :=
  .next ({ s with eng := Engine.init }).complete

/-- `CK.FEED byte` (R145). -/
def execCkFeed (byte : BitVec 8) (s : State) : Host.Outcome State Fault Refusal :=
  .next ({ s with eng := s.eng.offer Config.zeroStop byte }).complete

/-- `CK.SPAN start, len` (R150). A span beyond the buffer is never accepted (R96); if the engine is given one all the same it
raises the error the spec names for it, `ERR_RANGE`, and nothing is read (60_exceptions.md R243; log 11). -/
def execCkSpan (start len : BitVec 10) (s : State) : Host.Outcome State Fault Refusal :=
  if start.toNat + len.toNat ≤ Config.frameSize then
    .next ({ s with eng := s.eng.feed Config.zeroStop (s.buf.bytes start.toNat len.toNat) }).complete
  else .next (s.raise .range).complete

end Sys2Proof.Machine
end

