-- ==== Sys2Proof/Machine/FrameCodec.lean ====
section
/-! DEFINITION. The frame codec commands (41_frame_codec.md part 2). -/

namespace Sys2Proof.Machine

/-- `FR.CLEAR` (R176). -/
def execFrClear (s : State) : Host.Outcome State Fault Refusal :=
  .next ({ s with buf := s.buf.zero 0 Config.frameSize }).complete

/-- `FR.ENCODE` (R180). -/
def execFrEncode (s : State) : Host.Outcome State Fault Refusal :=
  .next (s.encodeFrame Config.zeroStop).complete

/-- `FR.SEAL` (R185). -/
def execFrSeal (s : State) : Host.Outcome State Fault Refusal :=
  .next (s.seal Config.zeroStop).complete

/-- `FR.DECODE rxlen` (R190). -/
def execFrDecode (rxlen : BitVec 16) (s : State) : Host.Outcome State Fault Refusal :=
  .next (s.decodeFrame Config.zeroStop rxlen.toNat).complete

end Sys2Proof.Machine
end

