-- ==== Sys2Proof/Machine/System.lean ====
section
/-! DEFINITION. The system command (42_system.md). -/

namespace Sys2Proof.Machine

/-- `NOP` (42_system.md R220): only its completion. -/
def execNop (s : State) : Host.Outcome State Fault Refusal := .next s.complete

end Sys2Proof.Machine
end

