-- ==== Sys2Proof/Machine/Dispatch.lean ====
section
/-! DEFINITION. The engine's performance of one command: one arm a row of the opcode table (30_encoding.md R93). -/

namespace Sys2Proof.Machine

def exec (i : Instr) (s : State) : Host.Outcome State Fault Refusal :=
  match i with
  | .nop => Sys2Proof.Machine.execNop s
  | .ckInit => Sys2Proof.Machine.execCkInit s
  | .ckFeed byte => Sys2Proof.Machine.execCkFeed byte s
  | .ckSpan start len => Sys2Proof.Machine.execCkSpan start len s
  | .frClear => Sys2Proof.Machine.execFrClear s
  | .frEncode => Sys2Proof.Machine.execFrEncode s
  | .frSeal => Sys2Proof.Machine.execFrSeal s
  | .frDecode rxlen => Sys2Proof.Machine.execFrDecode rxlen s

end Sys2Proof.Machine
end

