-- ==== Sys2Proof/Machine/Bus.lean ====
section
/-! DEFINITION. The block's bus side: register and buffer reads (42_system.md R224, 70_reset_and_hazards.md R281), writes,
the issue of a command (30_encoding.md R96), the soft reset (R272, R273); and the engine's turn. -/

namespace Sys2Proof.Machine

/-- `PARAM`: `FRAME_SIZE` in bits 31:16, `ZERO_STOP` in bit 0 (10_state.md R37). -/
def paramWord (zs : Bool) : Word := BitVec.ofNat 32 Config.frameSize <<< 16 ||| flagAt zs 0

/-- What a register reads as (10_state.md R20 to R37). -/
def regValue (s : State) : Reg → Word
  | .id => Config.idValue
  | .ctrl => 0
  | .status => statusWord s
  | .cmd => 0
  | .acc => s.eng.acc
  | .digest => s.eng.digest
  | .cnt => s.eng.cnt
  | .calcReg => s.calcReg
  | .rxfcs => s.rxfcs
  | .plen => s.plen.setWidth 32
  | .param => paramWord Config.zeroStop

/-- The value of a legal read of `n` bytes: a register, the frame window (20_memory.md R62, R66), or 0 (R38). -/
def readValue (s : State) (n : Nat) : Target → Word
  | .reg r => regValue s r
  | .frame k => memRead s.buf k n
  | .reserved => 0

/-- The data bits of a legal read that are unspecified while a command is pending (R281; log 5): in `STATUS` the fields
`TERM`, `SHORT`, `LONG`, `RESULT`; in the frame window the bytes of the buffer, its tail being RAZ at all times (10_state.md R38,
20_memory.md R66). -/
def unspecifiedBits (n : Nat) : Target → Word
  | .reg .id => 0
  | .reg .ctrl => 0
  | .reg .status => 0xFE
  | .reg .cmd => 0
  | .reg .acc => 0xFFFFFFFF
  | .reg .digest => 0xFFFFFFFF
  | .reg .cnt => 0xFFFFFFFF
  | .reg .calcReg => 0xFFFFFFFF
  | .reg .rxfcs => 0xFFFFFFFF
  | .reg .plen => 0xFFFFFFFF
  | .reg .param => 0
  | .frame k => leValue ((List.range n).map fun i => if k + i < Config.frameSize then 0xFF else 0)
  | .reserved => 0

/-- The data a legal read returns: exact when no command is pending (R224), else with R281's unspecified bits drawn. -/
def readData (s : State) (n : Nat) (t : Target) : Word :=
  if s.busy then
    (readValue s n t &&& ~~~ unspecifiedBits n t) ||| (Config.busyRead s.draws &&& unspecifiedBits n t)
  else readValue s n t

/-- The issue of a command word (30_encoding.md R96): busy, illegal, out of range, or accepted, in this order (60_exceptions.md
R249). -/
def issue (w : Word) (s : State) : State :=
  if s.busy then s.raise .busy
  else
    match decode w with
    | .error _ => s.raise .cmd
    | .ok i => if i.wf then { s with pend := some w } else s.raise .range

/-- The buffer the command `w` would leave. -/
def bufferAfter (s : State) (w : Word) : Memory :=
  match decode w with
  | .ok i =>
    match exec i s with
    | .next t => t.buf
    | .fault _ => s.buf
    | .refused _ => s.buf
  | .error _ => s.buf

/-- The buffer after a soft reset (70_reset_and_hazards.md R272): unchanged, but that a pending command is aborted and each
byte it would have written is old or new (R273); a byte it would not have written is the same in both (log 6). -/
def bufferAfterReset (s : State) : Memory :=
  match s.pend with
  | none => s.buf
  | some w => blend (Config.abortTakesNew s.draws) s.buf (bufferAfter s w)

/-- `SoftReset()` (R272): every register and `STATUS` field at its power-on value, no command pending. -/
def State.softReset (s : State) : State :=
  { State.reset with
    buf := bufferAfterReset s
    agenda := s.agenda
    resp := s.resp
    draws := s.draws + 1 }

/-- A legal write of `n` bytes (R280 for the busy case; 10_state.md R23, R29, R38, R39). DEDUCED (log 20): while a command is pending
a write to the frame-window tail 0x63E to 0x7FF sets `ERR_BUSY` like any write to the frame window. -/
def performWrite (s : State) (n : Nat) (v : Word) : Target → State
  | .frame k => if s.busy then s.raise .busy else { s with buf := memWrite s.buf k n v }
  | .reg .cmd => issue v s
  | .reg .ctrl => if v.getLsbD 0 then s.softReset else s
  | .reg .status => s.clearErrors v
  | .reg .id => s
  | .reg .acc => s
  | .reg .digest => s
  | .reg .cnt => s
  | .reg .calcReg => s
  | .reg .rxfcs => s
  | .reg .plen => s
  | .reg .param => s
  | .reserved => s

/-- What the bus returns to the host. -/
def State.respond (s : State) (data : Option Word) (error : Bool) : State := { s with resp := some ⟨data, error⟩ }

/-- A legal access. A read changes nothing of the block (20_memory.md R68). -/
def legalAccess (a : Access) (s : State) : State :=
  match a.op with
  | .read =>
    State.respond { s with draws := s.draws + 1 } (some (readData s a.size (targetAt a.offset))) false
  | .write v => (performWrite s a.size v (targetAt a.offset)).respond none false

/-- An illegal access is not performed: a read returns 0, the bus answers with an error, `ERR_BUS` is set (20_memory.md R65,
60_exceptions.md R245). -/
def illegalAccess (a : Access) (s : State) : State :=
  match a.op with
  | .read => (s.raise .bus).respond (some 0) true
  | .write _ => (s.raise .bus).respond none true

/-- One bus access. -/
def busAccess (a : Access) (s : State) : State := if a.legal then legalAccess a s else illegalAccess a s

/-- The engine's step: it performs the pending command, if there is one (00_scope.md R7). -/
def engineTurn (s : State) : Host.Outcome State Fault Refusal :=
  match s.pend with
  | none => .next s
  | some w =>
    match decode w with
    | .ok i => exec i s
    | .error _ => .fault .pendingIllegal

/-- Whether the engine steps next: its turn stands first, or no turn is left (70_reset_and_hazards.md R285: an accepted
command is eventually completed; log 1). -/
def engineIsNext : List Turn → Bool
  | [] => true
  | .engine :: _ => true
  | .host _ :: _ => false

/-- The next turn is taken and removed. -/
def takeTurn (s : State) : Host.Outcome State Fault Refusal :=
  match s.agenda with
  | [] => engineTurn s
  | .engine :: rest => engineTurn { s with agenda := rest }
  | .host a :: rest => .next (busAccess a { s with agenda := rest })

/-- `w`, the low `nbits` bits of it, accepted and pending, with the engine's turn next (log 2). -/
def withPending (s : State) (nbits w : Nat) : State :=
  { s with
    pend := some (BitVec.ofNat 32 (w % 2 ^ nbits))
    agenda := if engineIsNext s.agenda then s.agenda else .engine :: s.agenda }

end Sys2Proof.Machine
end

