-- ==== Sys2Proof/Machine/Step.lean ====
section
/-! DEFINITION. One step of the machine (00_scope.md R7). -/

namespace Sys2Proof.Machine

/-- One step: the turn the agenda puts first. -/
def step (s : State) : Host.Outcome State Fault Refusal := takeTurn s

/-- `s` with the command word accepted and pending and the engine's turn next, so that the next step runs it. The block
fetches no instructions (10_state.md R21): a command is the word in `PEND` (log 2). -/
def State.withFetchWord (s : State) (nbits w : Nat) : State := withPending s nbits w

end Sys2Proof.Machine
end

