-- ==== Sys2Proof/Safety.lean ====
section
/-! DEFINITION. The terms the statements use: the states a run can reach, a sequence of commands, the error an access raises,
the inputs of encode. -/

namespace Sys2Proof.Machine

/-- The pending word, if any, is a command the issue rule accepts (30_encoding.md R96; 10_state.md R41). -/
def State.pendingAccepted (s : State) : Bool :=
  match s.pend with
  | none => true
  | some w =>
    match decode w with
    | .ok i => i.wf
    | .error _ => false

/-- The invariant of the machine: the buffer is in canonical form, `PLEN` holds 0 to 512 (10_state.md R36), `PEND` holds an
accepted command (R41), `SHORT` and `LONG` are never both 1, and both are 0 when `RESULT` is `NONE` or `EMPTY` (R27, R28). -/
abbrev State.Inv (s : State) : Prop :=
  s.buf.wf = true ∧ s.plen.toNat ≤ Config.payloadCap ∧ s.pendingAccepted = true ∧ (s.short && s.long) = false ∧
    (s.result = .none ∨ s.result = .empty → s.short = false ∧ s.long = false)

/-- The engine performs a list of commands in order, stopping at the first that does not answer a next state. -/
def runCommands : List Instr → State → Host.Outcome State Fault Refusal
  | [], s => .next s
  | i :: is, s =>
    match exec i s with
    | .next t => runCommands is t
    | .fault r => .fault r
    | .refused r => .refused r

/-- Whether an access may not be made while a command is pending: a write to `CMD` or to the frame window (60_exceptions.md
R244), its tail too (log 20). -/
def heldWhileBusy : Target → Bool
  | .frame _ => true
  | .reg r => r == .cmd
  | .reserved => false

/-- The error a write of `v` to `CMD` raises when no command is pending (60_exceptions.md R242, R243). -/
def commandError (v : Word) : Option ErrorBit :=
  match decode v with
  | .error _ => some .cmd
  | .ok i => if i.wf then none else some .range

/-- The one error an access raises, the first of 60_exceptions.md R249's list that applies. -/
def firstError (s : State) (a : Access) : Option ErrorBit :=
  if a.legal then
    match a.op with
    | .read => none
    | .write v =>
      if s.busy && heldWhileBusy (targetAt a.offset) then some .busy
      else if targetAt a.offset = .reg .cmd then commandError v
      else none
  else some .bus

/-- One of the four sticky errors of a state (10_state.md R24). -/
def State.error (s : State) : ErrorBit → Bool
  | .cmd => s.errCmd
  | .range => s.errRange
  | .busy => s.errBusy
  | .bus => s.errBus

/-- A state less its error bits and the last bus response: what 60_exceptions.md R252 says an error never influences. -/
def State.lessErrors (s : State) : State :=
  { s with errCmd := false, errRange := false, errBusy := false, errBus := false, resp := none }

/-- The string in a field, an input of encode: its bytes before the first zero, at most `max` (41_frame_codec.md R180). -/
def fieldString (m : Memory) (off max : Nat) : List Byte := (m.bytes off max).takeWhile fun b => b != 0

/-- The host's write of a command word (30_encoding.md R90). -/
def cmdWrite (w : Word) : Access := ⟨0x00C, 4, .write w⟩

/-- The host's write to `CTRL` (42_system.md R222). -/
def ctrlWrite (v : Word) : Access := ⟨0x004, 4, .write v⟩

/-- The host's write to `STATUS` (R223). -/
def statusWrite (v : Word) : Access := ⟨0x008, 4, .write v⟩

/-- A legal 32-bit read at an offset returns `v` with no error and changes no state of the block: only the model's own response
and count of draws. -/
def ReadsAs (s : State) (off : Offset) (v : Word) : Prop :=
  busAccess ⟨off, 4, .read⟩ s = { s with resp := some ⟨some v, false⟩, draws := s.draws + 1 }

/-- Two buffers hold the same inputs of encode: type, address strings, and for a Data frame the payload string (R180). -/
def sameEncodeInputs (m m' : Memory) : Prop :=
  m.read typeOff = m'.read typeOff ∧
    (∀ base ∈ [address1Off, address2Off, address3Off],
      fieldString m base Config.addrChars = fieldString m' base Config.addrChars) ∧
    (m.read typeOff = 0x10 →
      fieldString m payloadOff Config.payloadChars = fieldString m' payloadOff Config.payloadChars)

end Sys2Proof.Machine
end

