-- ==== Sys2Proof/Certificates/Slice0/Obligations.lean ====
section
/-! DEFINITION. The statements for the provers, in the order of the spec's files: encodings, the engine, the commands, the bus,
errors, reset and hazards, the whole machine. `OBLIGATIONS.json` lists them. Where one names `resp` or `draws`, it says only how the
model records the bus's answer and counts its free values (log 3, 7). -/

open Sys2Proof Sys2Proof.Machine

/-! ### Encodings (30_encoding.md) -/

/-- Decoding an encoded command gives it back, for every command and every operand value (R91 to R93). -/
def Obligations.DecodeOfEncodeIsTheCommand : Prop := ∀ i : Instr, decode (encode i) = .ok i

/-- Encoding a decoded word gives the word back: every word has one meaning at most and no bit of it is dropped (R91, R94). -/
def Obligations.EncodeOfDecodeIsTheWord : Prop := ∀ (w : Word) (i : Instr), decode w = .ok i → encode i = w

/-- R93, the opcode map: each row is selected by its match and mask words, and at most one row matches any word. -/
def Obligations.OpcodeMapSelectsByMatchAndMask : Prop :=
  ∀ w : Word,
    (decode w = .ok .nop ↔ w &&& 0xFFFFFFFF = 0x00000000) ∧
    (decode w = .ok .ckInit ↔ w &&& 0xFFFFFFFF = 0x00000001) ∧
    (∀ b, decode w = .ok (.ckFeed b) ↔ w &&& 0xFFFF00FF = 0x00000002 ∧ b = w.extractLsb' 8 8) ∧
    (∀ start len, decode w = .ok (.ckSpan start len) ↔
      w &&& 0xF00000FF = 0x00000003 ∧ start = w.extractLsb' 8 10 ∧ len = w.extractLsb' 18 10) ∧
    (decode w = .ok .frClear ↔ w &&& 0xFFFFFFFF = 0x00000010) ∧
    (decode w = .ok .frEncode ↔ w &&& 0xFFFFFFFF = 0x00000011) ∧
    (decode w = .ok .frSeal ↔ w &&& 0xFFFFFFFF = 0x00000012) ∧
    (∀ n, decode w = .ok (.frDecode n) ↔ w &&& 0x0000FFFF = 0x00000013 ∧ n = w.extractLsb' 16 16) ∧
    (∀ r ∈ opcodeMap, ∀ r' ∈ opcodeMap, r.selects w = true → r'.selects w = true → r.matchWord = r'.matchWord)

/-- R94, the illegal words: an unallocated opcode, or a must-be-zero bit that is 1. An illegal word written while no command is
pending sets `ERR_CMD` and nothing else; every other word is a command; the zero word is `NOP`. -/
def Obligations.IllegalWordsAreRefused : Prop :=
  (∀ w : Word,
    (∃ e, decode w = .error e) ↔
      ((0x04 ≤ (w.extractLsb' 0 8).toNat ∧ (w.extractLsb' 0 8).toNat ≤ 0x0F) ∨ 0x14 ≤ (w.extractLsb' 0 8).toNat) ∨
      (w.extractLsb' 0 8 ∈ [0x00#8, 0x01#8, 0x10#8, 0x11#8, 0x12#8] ∧ w.extractLsb' 8 24 ≠ 0) ∨
      (w.extractLsb' 0 8 = 0x02#8 ∧ w.extractLsb' 16 16 ≠ 0) ∨
      (w.extractLsb' 0 8 = 0x03#8 ∧ w.extractLsb' 28 4 ≠ 0) ∨
      (w.extractLsb' 0 8 = 0x13#8 ∧ w.extractLsb' 8 8 ≠ 0)) ∧
  (∀ (w : Word) (e : DecodeError) (s : State), decode w = .error e → s.pend = none →
    { busAccess (cmdWrite w) s with resp := s.resp } = { s with errCmd := true }) ∧
  decode 0x00000000 = .ok .nop

/-- Words written out from R91's formats, and the words of the vectors of 95_test_vectors.md, decode to their commands. -/
def Obligations.WordsOfTheSpecDecode : Prop :=
  decode 0x00000000 = .ok .nop ∧ decode 0x00000001 = .ok .ckInit ∧ decode 0x00006102 = .ok (.ckFeed 0x61) ∧
  decode 0x00140003 = .ok (.ckSpan 0 5) ∧ decode 0x00163A03 = .ok (.ckSpan 570 5) ∧
  decode 0x08F80003 = .ok (.ckSpan 0 574) ∧ decode 0x00000010 = .ok .frClear ∧ decode 0x00000011 = .ok .frEncode ∧
  decode 0x00000012 = .ok .frSeal ∧ decode 0x023E0013 = .ok (.frDecode 574) ∧
  decode 0x00000004 = .error .unallocatedOpcode ∧ decode 0x10140003 = .error .mustBeZeroBit ∧
  decode 0x023E0113 = .error .mustBeZeroBit

/-- The pseudo-instructions of R95 expand as it says, and an operand outside its field is refused. -/
def Obligations.AssemblerExpandsPseudoInstructions : Prop :=
  (∀ cs : List Byte, assemble (.ckStr cs) = some (cs.map .ckFeed)) ∧
  (∀ start len : Nat, start < 1024 → len < 1024 →
    assemble (.ckHash start len) = some [.ckInit, .ckSpan (BitVec.ofNat 10 start) (BitVec.ofNat 10 len)]) ∧
  assemble .frRecv = some [.frDecode 574] ∧
  (∀ b : Nat, assemble (.ckFeed b) = none ↔ 256 ≤ b) ∧
  (∀ start len : Nat, assemble (.ckSpan start len) = none ↔ 1024 ≤ start ∨ 1024 ≤ len) ∧
  (∀ n : Nat, assemble (.frDecode n) = none ↔ 65536 ≤ n) ∧
  (∀ start len : Nat, assemble (.ckHash start len) = none ↔ 1024 ≤ start ∨ 1024 ≤ len)

/-! ### The checksum engine (40_checksum.md) -/

/-- R130: `mix` in natural numbers, the byte added unsigned, every step modulo 2^32. -/
def Obligations.MixIsTheUnsignedFormula : Prop :=
  ∀ (a : Word) (b : Byte),
    let x := (a.toNat + b.toNat) % 2 ^ 32
    let y := (x + x * 2 ^ 10) % 2 ^ 32
    (mix a b).toNat = y ^^^ (y / 2 ^ 6)

/-- R131: `fin` in natural numbers, and `fin(0) == 0`; reading `DIGEST` gives `fin(ACC)` and leaves `ACC` as it is. -/
def Obligations.FinIsTheUnsignedFormula : Prop :=
  (∀ a : Word,
    let x := (a.toNat + a.toNat * 2 ^ 3) % 2 ^ 32
    let y := x ^^^ (x / 2 ^ 11)
    (fin a).toNat = (y + y * 2 ^ 15) % 2 ^ 32) ∧
  fin 0 = 0 ∧
  (∀ s : State, s.pend = none →
    busAccess ⟨0x014, 4, .read⟩ s
      = { s with resp := some ⟨some (fin s.eng.acc), false⟩, draws := s.draws + 1 })

/-- R132: offering one byte to the engine. -/
def Obligations.OfferFollowsTheMixingStep : Prop :=
  ∀ (e : Engine) (b : Byte),
    (∀ zs, e.term = true → e.offer zs b = e) ∧
    (e.term = false → b = 0 → e.offer true b = { e with term := true }) ∧
    (∀ zs, e.term = false → zs = false ∨ b ≠ 0 → e.offer zs b = ⟨mix e.acc b, false, e.cnt + 1⟩)

/-- R135: what follows from the zero stop. Bytes from the first zero on never affect the digest; leading zeros never move
`ACC` from 0; feeding in pieces equals feeding in one piece. -/
def Obligations.StreamingConsequences : Prop :=
  (∀ s : List Byte,
    checksum true s = checksum true (s.takeWhile fun b => b != 0) ∧
    (Engine.init.feed true s).cnt = BitVec.ofNat 32 (s.takeWhile fun b => b != 0).length) ∧
  mix 0 0 = 0 ∧
  (∀ zs n, (Engine.init.feed zs (List.replicate n 0)).acc = 0) ∧
  (∀ s : List Byte,
    checksum false (0 :: s) = checksum false s ∧
    (Engine.init.feed false (0 :: s)).cnt = (Engine.init.feed false s).cnt + 1) ∧
  (∀ zs (e : Engine) (s t : List Byte), e.feed zs (s ++ t) = (e.feed zs s).feed zs t)

/-- R140: `CK.INIT` puts the engine in its initial state, after which `DIGEST` reads 0; nothing else changes. -/
def Obligations.CkInitInitialisesTheEngine : Prop :=
  ∀ s : State, ∃ t, exec .ckInit s = .next t ∧ t = { s with eng := ⟨0, false, 0⟩, pend := none } ∧ regValue t .digest = 0

/-- R145: `CK.FEED byte` completes, offers its byte (ignored while `TERM`, setting `TERM` when zero, mixed otherwise) and
changes nothing else. -/
def Obligations.CkFeedOffersItsByte : Prop :=
  ∀ (s : State) (b : BitVec 8),
    exec (.ckFeed b) s = .next { s with
      eng := if s.eng.term then s.eng else if b = 0 then { s.eng with term := true }
        else ⟨mix s.eng.acc b, false, s.eng.cnt + 1⟩
      pend := none }

/-- R150: `CK.SPAN start, len` of a span inside the buffer completes, offers `buf[start] .. buf[start + len - 1]` in increasing
order and changes nothing else; a span of length 0 changes nothing. -/
def Obligations.CkSpanOffersTheSpan : Prop :=
  (∀ (s : State) (start len : BitVec 10), start.toNat + len.toNat ≤ 574 →
    exec (.ckSpan start len) s = .next { s with
      eng := (List.range len.toNat).foldl (fun e k => e.offer true (s.buf.read (start.toNat + k))) s.eng
      pend := none }) ∧
  (∀ (s : State) (start : BitVec 10), start.toNat ≤ 574 → exec (.ckSpan start 0) s = .next { s with pend := none })

/-- The model's choice (log 11): the engine given a `CK.SPAN` beyond the buffer, which no issue accepts, raises `ERR_RANGE` and
reads nothing. -/
def Obligations.OutOfRangeSpanPerformed : Prop :=
  ∀ (s : State) (start len : BitVec 10), 574 < start.toNat + len.toNat →
    exec (.ckSpan start len) s = .next { s with errRange := true, pend := none }

/-- R151: a span leaves the same engine state as feeding its bytes one by one with the buffer unchanged; `CK.INIT` and then the
feeding of a string leave its checksum in `DIGEST`. -/
def Obligations.SpanEqualsFeeds : Prop :=
  (∀ (s : State) (start len : BitVec 10), start.toNat + len.toNat ≤ 574 →
    ∃ t u, exec (.ckSpan start len) s = .next t ∧
      runCommands ((s.buf.bytes start.toNat len.toNat).map .ckFeed) s = .next u ∧
      t.eng = u.eng ∧ u.buf = s.buf ∧ t.buf = s.buf) ∧
  (∀ (s : State) (x : List Byte),
    ∃ u, runCommands (.ckInit :: x.map .ckFeed) s = .next u ∧ regValue u .digest = checksum true x)

/-! ### The frame codec (41_frame_codec.md) -/

/-- `strnlen` is the first zero byte's place, or the bound where there is none (00_scope.md R10). -/
def Obligations.StrnlenIsTheFirstZero : Prop :=
  ∀ (m : Memory) (off max : Nat),
    strnlen m off max ≤ max ∧ (∀ k < strnlen m off max, m.read (off + k) ≠ 0) ∧
    (strnlen m off max < max → m.read (off + strnlen m off max) = 0)

/-- R172: the frame digest offers the engine, from its initial state, the 62 header bytes and the payload's logical length,
the integrity bytes taken as zero. -/
def Obligations.FrameDigestOffersTheHashedSpan : Prop :=
  ∀ (zs : Bool) (m : Memory),
    digestEngine zs m
      = (List.range (62 + (if m.read 0 = 0x10 then strnlen m 62 512 else 0))).foldl
          (fun e i => e.offer zs (if 58 ≤ i ∧ i ≤ 61 then 0 else m.read i)) ⟨0, false, 0⟩ ∧
    frameDigest zs m = fin (digestEngine zs m).acc

/-- R173: with `ZERO_STOP` 1 the frame digest is the checksum of the header bytes before the first zero at or before offset 58;
the payload never affects it, `TERM` is 1 and `CNT` at most 58 after it. -/
def Obligations.FrameDigestStopsAtTheFirstZero : Prop :=
  ∀ m : Memory,
    let z := strnlen m 0 58
    (z ≤ 58 ∧ (∀ j < z, m.read j ≠ 0) ∧ (z < 58 → m.read z = 0)) ∧
    frameDigest true m = checksum true (m.bytes 0 z) ∧
    (digestEngine true m).term = true ∧ (digestEngine true m).cnt = BitVec.ofNat 32 z ∧
    (m.read 0 = 0 → frameDigest true m = 0) ∧
    (m.read 1 = 0 → frameDigest true m = checksum true [m.read 0]) ∧
    (∀ m' : Memory, (∀ a < 58, m'.read a = m.read a) → digestEngine true m' = digestEngine true m)

/-- R192, in part: buffers that agree up to and at the first zero of the header have the same digest, so changes after it go
undetected. -/
def Obligations.BytesAfterTheFirstZeroAreNotHashed : Prop :=
  ∀ m m' : Memory, (∀ a < 58, a ≤ strnlen m 0 58 → m'.read a = m.read a) → frameDigest true m' = frameDigest true m

/-- R176: `FR.CLEAR` completes, zeroes all 574 bytes and changes nothing else. -/
def Obligations.FrClearZeroesTheBuffer : Prop :=
  ∀ s : State, ∃ m : Memory, exec .frClear s = .next { s with buf := m, pend := none } ∧
    (∀ a < 574, m.read a = 0) ∧ (∀ a, 574 ≤ a → m.read a = s.buf.read a)

/-- R180: `FR.ENCODE` completes, leaves the canonical frame with its integrity field filled, the engine state of its digest,
`CALC` and `PLEN`, and changes nothing else. -/
def Obligations.FrEncodeLeavesTheCanonicalFrame : Prop :=
  ∀ s : State, ∃ m : Memory,
    exec .frEncode s = .next { s with
      eng := digestEngine true m
      calcReg := frameDigest true m
      plen := BitVec.ofNat 10 (payloadLen m)
      buf := m
      pend := none } ∧
    m.read 0 = s.buf.read 0 ∧
    (∀ a, 1 ≤ a → a ≤ 3 → m.read a = 0) ∧
    (∀ base ∈ [4, 22, 40], ∀ i < 18,
      m.read (base + i) = if i < strnlen s.buf base 17 then s.buf.read (base + i) else 0) ∧
    (∀ i < 512,
      m.read (62 + i) = if s.buf.read 0 = 0x10 ∧ i < strnlen s.buf 62 511 then s.buf.read (62 + i) else 0) ∧
    (∀ k < 4, m.read (58 + k) = (frameDigest true m).extractLsb' (8 * k) 8) ∧
    (∀ a, 574 ≤ a → m.read a = s.buf.read a)

/-- R174: the integrity `FR.ENCODE` writes depends only on the type byte: the table. -/
def Obligations.EncodedIntegrityTable : Prop :=
  ∀ s : State, ∃ t, exec .frEncode s = .next t ∧ memRead t.buf 58 4 = t.calcReg ∧
    (s.buf.read 0 = 0x00 → t.calcReg = 0x00000000 ∧ t.buf.bytes 58 4 = [0x00, 0x00, 0x00, 0x00] ∧ t.eng.cnt = 0) ∧
    (s.buf.read 0 = 0x01 → t.calcReg = 0x124EA49D ∧ t.buf.bytes 58 4 = [0x9D, 0xA4, 0x4E, 0x12] ∧ t.eng.cnt = 1) ∧
    (s.buf.read 0 = 0x02 → t.calcReg = 0x249DC93B ∧ t.buf.bytes 58 4 = [0x3B, 0xC9, 0x9D, 0x24] ∧ t.eng.cnt = 1) ∧
    (s.buf.read 0 = 0x10 → t.calcReg = 0x24EEC9D9 ∧ t.buf.bytes 58 4 = [0xD9, 0xC9, 0xEE, 0x24] ∧ t.eng.cnt = 1) ∧
    (s.buf.read 0 ≠ 0 → t.calcReg = checksum true [s.buf.read 0] ∧ t.eng.cnt = 1) ∧
    (s.buf.read 0 = 0xFF → t.calcReg = 0xC7B20F1D ∧ t.buf.bytes 58 4 = [0x1D, 0x0F, 0xB2, 0xC7])

/-- R181: two `FR.ENCODE`s whose inputs are equal leave equal buffers, whatever else the buffers held. -/
def Obligations.EncodeDependsOnItsInputsAlone : Prop :=
  ∀ s s' : State, sameEncodeInputs s.buf s'.buf →
    ∃ t t', exec .frEncode s = .next t ∧ exec .frEncode s' = .next t' ∧ t.buf.bytes 0 574 = t'.buf.bytes 0 574

/-- R185: `FR.SEAL` completes, stores the digest of the buffer as it stands in bytes 58 to 61, sets the engine, `CALC` and
`PLEN`, and changes nothing else. -/
def Obligations.FrSealFillsTheIntegrityField : Prop :=
  ∀ s : State, ∃ m : Memory,
    exec .frSeal s = .next { s with
      eng := digestEngine true s.buf
      calcReg := frameDigest true s.buf
      plen := BitVec.ofNat 10 (payloadLen s.buf)
      buf := m
      pend := none } ∧
    (∀ k < 4, m.read (58 + k) = (frameDigest true s.buf).extractLsb' (8 * k) 8) ∧
    (∀ a, a < 58 ∨ 61 < a → m.read a = s.buf.read a)

/-- R185's corner case: sealing again changes no register and no byte. -/
def Obligations.SealIsIdempotent : Prop :=
  ∀ s : State, ∃ t u, exec .frSeal s = .next t ∧ exec .frSeal t = .next u ∧ { u with buf := t.buf } = t ∧
    ∀ a, u.buf.read a = t.buf.read a

/-- R190: a receive of no bytes sets `EMPTY`, clears `SHORT` and `LONG` and changes nothing else. -/
def Obligations.FrDecodeOfNothingIsEmpty : Prop :=
  ∀ s : State, exec (.frDecode 0) s = .next { s with short := false, long := false, result := .empty, pend := none }

/-- R191: the type check comes first. A frame of an invalid type reports `ERR_TYPE` whatever its integrity, and the integrity
check's registers keep their values; `EMPTY` precedes both. -/
def Obligations.TypeCheckPrecedesIntegrityCheck : Prop :=
  (∀ (s : State) (n : BitVec 16), n ≠ 0 → s.buf.read 0 ∉ [0x00#8, 0x01#8, 0x02#8, 0x10#8] →
    ∃ m : Memory,
      exec (.frDecode n) s = .next { s with
        short := decide (n.toNat < 574)
        long := decide (574 < n.toNat)
        result := .errType
        buf := m
        pend := none } ∧
      ∀ a, m.read a = if n.toNat ≤ a ∧ a < 574 then 0 else s.buf.read a) ∧
  (∀ s : State, ∃ t, exec (.frDecode 0) s = .next t ∧ t.result = .empty ∧ t.buf = s.buf)

/-- R190: a frame of a valid type is decoded: the bytes not received read as zero, the digest, the received integrity and the
payload length are recorded, the engine holds the digest's state, and the result is the type's code exactly when the two
32-bit values are equal; nothing else changes. -/
def Obligations.FrDecodeChecksTheIntegrity : Prop :=
  ∀ (s : State) (n : BitVec 16) (code : ResultCode), n ≠ 0 →
    (s.buf.read 0 = 0x00 ∧ code = .okAssoc) ∨ (s.buf.read 0 = 0x01 ∧ code = .okProbe) ∨
      (s.buf.read 0 = 0x02 ∧ code = .okRts) ∨ (s.buf.read 0 = 0x10 ∧ code = .okData) →
    ∃ m : Memory,
      exec (.frDecode n) s = .next { s with
        short := decide (n.toNat < 574)
        long := decide (574 < n.toNat)
        buf := m
        eng := digestEngine true m
        calcReg := frameDigest true m
        rxfcs := memRead m 58 4
        plen := BitVec.ofNat 10 (payloadLen m)
        result := if frameDigest true m = memRead m 58 4 then code else .errFcs
        pend := none } ∧
      ∀ a, m.read a = if n.toNat ≤ a ∧ a < 574 then 0 else s.buf.read a

/-- R182: a frame encoded and then decoded with the buffer unchanged passes with its type's code, or reports the invalid type. -/
def Obligations.EncodeThenDecodeRoundTrip : Prop :=
  ∀ s : State, ∃ t, exec .frEncode s = .next t ∧
    ∀ t' : State, t'.buf = t.buf → ∃ u, exec (.frDecode 574) t' = .next u ∧
      (s.buf.read 0 = 0x00 → u.result = .okAssoc ∧ u.calcReg = u.rxfcs) ∧
      (s.buf.read 0 = 0x01 → u.result = .okProbe ∧ u.calcReg = u.rxfcs) ∧
      (s.buf.read 0 = 0x02 → u.result = .okRts ∧ u.calcReg = u.rxfcs) ∧
      (s.buf.read 0 = 0x10 → u.result = .okData ∧ u.calcReg = u.rxfcs) ∧
      (s.buf.read 0 ∉ [0x00#8, 0x01#8, 0x02#8, 0x10#8] → u.result = .errType)

/-- R176: a cleared buffer is an Association frame whose stored integrity is already correct. -/
def Obligations.ClearedBufferDecodesAsAssociation : Prop :=
  ∀ s : State, ∃ t u, exec .frClear s = .next t ∧ exec (.frDecode 574) t = .next u ∧
    u.result = .okAssoc ∧ u.calcReg = 0 ∧ u.rxfcs = 0 ∧ u.plen = 0

/-- R170: after `FR.ENCODE`, `FR.SEAL` and an `FR.DECODE` that reaches the integrity check, the engine holds the state of the
frame digest of the buffer, and `DIGEST` reads the same value as `CALC`. -/
def Obligations.FrameOperationsOverwriteTheEngine : Prop :=
  ∀ s t : State,
    exec .frEncode s = .next t ∨ exec .frSeal s = .next t ∨
      (∃ n : BitVec 16, n ≠ 0 ∧ s.buf.read 0 ∈ [0x00#8, 0x01#8, 0x02#8, 0x10#8] ∧ exec (.frDecode n) s = .next t) →
    t.eng = digestEngine true t.buf ∧ regValue t .digest = regValue t .calcReg

/-! ### System operations (42_system.md) -/

/-- R220: `NOP` completes and changes nothing but `BUSY`. -/
def Obligations.NopOnlyCompletes : Prop := ∀ s : State, exec .nop s = .next { s with pend := none }

/-- R223: a `STATUS` write, accepted whether or not a command is pending, clears exactly the error bits written as 1; one of an
illegal size or alignment clears nothing and sets `ERR_BUS`. -/
def Obligations.StatusWriteClearsErrors : Prop :=
  (∀ (s : State) (v : Word),
    busAccess (statusWrite v) s = { s with
      errCmd := if v.getLsbD 8 = true then false else s.errCmd
      errRange := if v.getLsbD 9 = true then false else s.errRange
      errBusy := if v.getLsbD 10 = true then false else s.errBusy
      errBus := if v.getLsbD 11 = true then false else s.errBus
      resp := some ⟨none, false⟩ }) ∧
  (∀ (s : State) (off : Offset) (v : Word) (n : Nat), 0x008 ≤ off.toNat → off.toNat < 0x00C → ¬ (off = 0x008 ∧ n = 4) →
    busAccess ⟨off, n, .write v⟩ s = { s with errBus := true, resp := some ⟨none, true⟩ })

/-- R20, R224: what a 32-bit read of each register returns while no command is pending, and 0 at the reserved offsets and the
frame-window tail (R38). -/
def Obligations.RegisterReadsReturnTheirValues : Prop :=
  ∀ s : State, s.pend = none →
    ReadsAs s 0x000 0x46435331 ∧ ReadsAs s 0x004 0 ∧ ReadsAs s 0x008 (statusWord s) ∧ ReadsAs s 0x00C 0 ∧
    ReadsAs s 0x010 s.eng.acc ∧ ReadsAs s 0x014 (fin s.eng.acc) ∧ ReadsAs s 0x018 s.eng.cnt ∧
    ReadsAs s 0x01C s.calcReg ∧ ReadsAs s 0x020 s.rxfcs ∧ ReadsAs s 0x024 (s.plen.setWidth 32) ∧ ReadsAs s 0x028 0x023E0001 ∧
    (∀ off : Offset, off.toNat % 4 = 0 →
      (0x02C ≤ off.toNat ∧ off.toNat < 0x400) ∨ (0x640 ≤ off.toNat ∧ off.toNat < 0x1000) → ReadsAs s off 0)

/-- R24, R28: the fields of the `STATUS` word and their bits, `RESULT` by the numbers of its eight codes; bits 31:12 read 0. -/
def Obligations.StatusWordFields : Prop :=
  ∀ s : State,
    (statusWord s).getLsbD 0 = s.busy ∧ (statusWord s).getLsbD 1 = s.eng.term ∧ (statusWord s).getLsbD 2 = s.short ∧
    (statusWord s).getLsbD 3 = s.long ∧
    ((statusWord s).extractLsb' 4 4 = match s.result with
      | .none => 0
      | .okAssoc => 1
      | .okProbe => 2
      | .okRts => 3
      | .okData => 4
      | .errType => 5
      | .errFcs => 6
      | .empty => 7) ∧
    (statusWord s).getLsbD 8 = s.errCmd ∧ (statusWord s).getLsbD 9 = s.errRange ∧
    (statusWord s).getLsbD 10 = s.errBusy ∧ (statusWord s).getLsbD 11 = s.errBus ∧
    (statusWord s).extractLsb' 12 20 = 0

/-! ### Memory, the bus and errors (20_memory.md, 30_encoding.md R96, 60_exceptions.md) -/

/-- R64: the legal accesses. -/
def Obligations.LegalAccesses : Prop :=
  ∀ a : Access,
    a.legal = true ↔
      (0x400 ≤ a.offset.toNat ∧ a.offset.toNat ≤ 0x7FF ∧
        (a.size = 1 ∨ (a.size = 2 ∧ a.offset.toNat % 2 = 0) ∨ (a.size = 4 ∧ a.offset.toNat % 4 = 0))) ∨
      ((a.offset.toNat ≤ 0x3FF ∨ 0x800 ≤ a.offset.toNat) ∧ a.size = 4 ∧ a.offset.toNat % 4 = 0)

/-- R65, R245: an illegal access, read or write, at any time, is not performed: a read returns 0, the bus answers with an error,
`ERR_BUS` is set. -/
def Obligations.IllegalAccessesAreNotPerformed : Prop :=
  ∀ (a : Access) (s : State), a.legal = false →
    (a.op = .read → busAccess a s = { s with errBus := true, resp := some ⟨some 0, true⟩ }) ∧
    (∀ v, a.op = .write v → busAccess a s = { s with errBus := true, resp := some ⟨none, true⟩ })

/-- R62, R66: a legal frame-window write while no command is pending stores the data's bytes, lowest first, at the offsets it
covers inside the buffer, and changes nothing else. -/
def Obligations.FrameWindowWriteStoresItsBytes : Prop :=
  ∀ (s : State) (off : Offset) (n : Nat) (v : Word), s.pend = none → 0x400 ≤ off.toNat → off.toNat < 0x800 →
    Access.legal ⟨off, n, .write v⟩ = true →
    ∃ m : Memory, busAccess ⟨off, n, .write v⟩ s = { s with buf := m, resp := some ⟨none, false⟩ } ∧
      (∀ k < n, off.toNat - 0x400 + k < 574 → m.read (off.toNat - 0x400 + k) = v.extractLsb' (8 * k) 8) ∧
      (∀ a, a < off.toNat - 0x400 ∨ off.toNat - 0x400 + n ≤ a ∨ 574 ≤ a → m.read a = s.buf.read a)

/-- R62, R66: a legal frame-window read while no command is pending returns the bytes at the offsets it covers, lowest first,
those beyond the buffer as zero (the data bits above the size are zero: log 3), and changes no state of the block. -/
def Obligations.FrameWindowReadReturnsItsBytes : Prop :=
  ∀ (s : State) (off : Offset) (n : Nat), s.pend = none → 0x400 ≤ off.toNat → off.toNat < 0x800 →
    Access.legal ⟨off, n, .read⟩ = true →
    ∃ v : Word,
      busAccess ⟨off, n, .read⟩ s = { s with resp := some ⟨some v, false⟩, draws := s.draws + 1 } ∧
      (∀ k < n, v.extractLsb' (8 * k) 8
        = if off.toNat - 0x400 + k < 574 then s.buf.read (off.toNat - 0x400 + k) else 0) ∧
      (∀ i, 8 * n ≤ i → v.getLsbD i = false)

/-- R68: a legal read changes no state of the block, at any time: only the model's own response and count of draws. -/
def Obligations.ReadsChangeNoState : Prop :=
  ∀ (s : State) (off : Offset) (n : Nat), Access.legal ⟨off, n, .read⟩ = true →
    { busAccess ⟨off, n, .read⟩ s with resp := s.resp, draws := s.draws } = s

/-- R38, R39: legal writes to read-only registers, to reserved offsets, to the frame-window tail while no command is pending,
and to the reserved bits of `CTRL` and `STATUS`, are ignored without error. -/
def Obligations.ReadOnlyAndReservedIgnoreWrites : Prop :=
  (∀ (s : State) (v : Word), ∀ off ∈ [0x000#12, 0x010#12, 0x014#12, 0x018#12, 0x01C#12, 0x020#12, 0x024#12, 0x028#12],
    busAccess ⟨off, 4, .write v⟩ s = { s with resp := some ⟨none, false⟩ }) ∧
  (∀ (s : State) (v : Word) (off : Offset), off.toNat % 4 = 0 →
    (0x02C ≤ off.toNat ∧ off.toNat < 0x400) ∨ 0x800 ≤ off.toNat →
    busAccess ⟨off, 4, .write v⟩ s = { s with resp := some ⟨none, false⟩ }) ∧
  (∀ (s : State) (v : Word) (off : Offset) (n : Nat), s.pend = none → 0x63E ≤ off.toNat → off.toNat < 0x800 →
    Access.legal ⟨off, n, .write v⟩ = true →
    busAccess ⟨off, n, .write v⟩ s = { s with resp := some ⟨none, false⟩ }) ∧
  (∀ (s : State) (v : Word), v.getLsbD 0 = false →
    busAccess (ctrlWrite v) s = { s with resp := some ⟨none, false⟩ }) ∧
  (∀ (s : State) (v : Word), v.extractLsb' 8 4 = 0 →
    busAccess (statusWrite v) s = { s with resp := some ⟨none, false⟩ })

/-- R96: the issue of a command word, exactly one outcome; an access of an illegal size issues nothing; the engine's step that
performs the accepted command clears `BUSY`. -/
def Obligations.IssueHasOneOutcome : Prop :=
  (∀ (s : State) (w : Word), s.busy = true →
    { busAccess (cmdWrite w) s with resp := s.resp } = { s with errBusy := true }) ∧
  (∀ (s : State) (w : Word), s.busy = false →
    (∀ e, decode w = .error e →
      { busAccess (cmdWrite w) s with resp := s.resp } = { s with errCmd := true }) ∧
    (∀ i, decode w = .ok i →
      (w.extractLsb' 0 8 = 0x03#8 ∧ 574 < (w.extractLsb' 8 10).toNat + (w.extractLsb' 18 10).toNat →
        { busAccess (cmdWrite w) s with resp := s.resp } = { s with errRange := true }) ∧
      (¬ (w.extractLsb' 0 8 = 0x03#8 ∧ 574 < (w.extractLsb' 8 10).toNat + (w.extractLsb' 18 10).toNat) →
        { busAccess (cmdWrite w) s with resp := s.resp } = { s with pend := some w } ∧
        ∃ t, engineTurn { s with pend := some w } = exec i { s with pend := some w } ∧
          exec i { s with pend := some w } = .next t ∧ t.busy = false))) ∧
  (∀ (s : State) (w : Word) (n : Nat), n ≠ 4 →
    busAccess ⟨0x00C, n, .write w⟩ s = { s with errBus := true, resp := some ⟨none, true⟩ })

/-- R243: a `CK.SPAN` word beyond the buffer written while no command is pending sets `ERR_RANGE` and nothing else; no other
command has a range check. -/
def Obligations.OnlySpanHasARangeCheck : Prop :=
  (∀ (s : State) (start len : BitVec 10), s.pend = none → 574 < start.toNat + len.toNat →
    { busAccess (cmdWrite (encode (.ckSpan start len))) s with resp := s.resp } = { s with errRange := true }) ∧
  (∀ (s : State) (i : Instr), s.pend = none → (∀ start len, i ≠ .ckSpan start len) →
    { busAccess (cmdWrite (encode i)) s with resp := s.resp } = { s with pend := some (encode i) })

/-- R249: an access raises at most one error, the first that applies of `ERR_BUS`, `ERR_BUSY`, `ERR_CMD`, `ERR_RANGE`, and has
no other effect; an access that raises none sets no error bit; a completing command raises none. R29, R251: a step that clears an
error bit is a `STATUS` write with a 1 in its position or a soft reset. The model's choices: a write to the frame-window tail while
a command is pending is one that raises `ERR_BUSY` (log 20); a legal access, one that raises an error too, is answered without a
bus error (log 14). -/
def Obligations.OneErrorInPriorityOrder : Prop :=
  (∀ (s : State) (a : Access) (e : ErrorBit), firstError s a = some e →
    { busAccess a s with resp := s.resp } = s.raise e) ∧
  (∀ (s : State) (a : Access), firstError s a = none →
    ∀ e : ErrorBit, (busAccess a s).error e = true → s.error e = true) ∧
  (∀ (i : Instr) (s t : State), i.wf = true → exec i s = .next t → ∀ e : ErrorBit, t.error e = s.error e) ∧
  (∀ (s t : State) (e : ErrorBit), step s = .next t → s.error e = true → t.error e = false →
    ∃ v rest, (s.agenda = .host (statusWrite v) :: rest ∧ v.getLsbD e.bit = true) ∨
      (s.agenda = .host (ctrlWrite v) :: rest ∧ v.getLsbD 0 = true)) ∧
  (∀ (s : State) (a : Access), a.legal = true → ∃ d, (busAccess a s).resp = some ⟨d, false⟩)

/-- R252: a set error bit blocks nothing: two states that differ only in their error bits (and the last response) step to
states that differ only so. -/
def Obligations.ErrorsBlockNothing : Prop :=
  ∀ s s' t : State, s.lessErrors = s'.lessErrors → step s = .next t →
    ∃ t', step s' = .next t' ∧ t.lessErrors = t'.lessErrors

/-! ### Reset and hazards (70_reset_and_hazards.md) -/

/-- R270: every register and `STATUS` field after power-on reset; no command is pending, and any legal access may come first: it
is performed (a read changes nothing, a write has its effect) and refused neither as illegal nor as made while busy. -/
def Obligations.PowerOnResetValues : Prop :=
  regValue State.reset .id = 0x46435331 ∧ regValue State.reset .param = 0x023E0001 ∧
  regValue State.reset .ctrl = 0 ∧ regValue State.reset .cmd = 0 ∧
  regValue State.reset .status = 0x00000000 ∧ regValue State.reset .acc = 0 ∧ regValue State.reset .cnt = 0 ∧
  regValue State.reset .digest = 0 ∧ regValue State.reset .calcReg = 0 ∧ regValue State.reset .rxfcs = 0 ∧
  regValue State.reset .plen = 0 ∧
  State.reset.busy = false ∧ State.reset.pend = none ∧ State.reset.eng = ⟨0, false, 0⟩ ∧
  State.reset.short = false ∧ State.reset.long = false ∧ State.reset.result = .none ∧
  (∀ e : ErrorBit, State.reset.error e = false) ∧
  (∀ a : Access, a.legal = true →
    { busAccess a State.reset with resp := none, draws := 0 }
      = (match a.op with
        | .read => State.reset
        | .write v => { performWrite State.reset a.size v (targetAt a.offset) with resp := none, draws := 0 }) ∧
    (busAccess a State.reset).errBus = false ∧ (busAccess a State.reset).errBusy = false)

/-- R271, as log 4 models it: no buffer byte is written at reset, and a byte nothing has written reads as the free value of its
offset, whatever that is. -/
def Obligations.UnwrittenBytesAreUnconstrained : Prop :=
  (∀ a, State.reset.buf.written a = none) ∧
  (∀ (m : Memory) (a : Nat), m.written a = none → m.read a = Config.powerOnByte a)

/-- R272, R222: writing 1 to `CTRL.SRST` puts every register and `STATUS` field at its power-on value and discards a pending
command; with none pending the frame buffer is unchanged. The model's choice (log 19): the turns to come are kept and the write is
answered like any other legal write. -/
def Obligations.SoftResetRestoresPowerOnValues : Prop :=
  ∀ (s : State) (v : Word), v.getLsbD 0 = true →
    (∀ r : Reg, regValue (busAccess (ctrlWrite v) s) r = regValue State.reset r) ∧
    (busAccess (ctrlWrite v) s).pend = none ∧
    (busAccess (ctrlWrite v) s).resp = some ⟨none, false⟩ ∧
    (busAccess (ctrlWrite v) s).agenda = s.agenda ∧
    (s.pend = none → (busAccess (ctrlWrite v) s).buf = s.buf)

/-- R273, as log 6 models it: a soft reset aborts a pending command. Each byte of the buffer then holds its value before the command
or the value the command would have given it, by a free choice for each byte (the model's choice: a constant without a body,
applied to the count of draws and the offset); commands that write no byte leave the buffer unchanged. -/
def Obligations.AbortLeavesEachByteOldOrNew : Prop :=
  ∀ (s u : State) (w v : Word) (i : Instr), s.pend = some w → decode w = .ok i → exec i s = .next u →
    v.getLsbD 0 = true →
    (∀ r : Reg, regValue (busAccess (ctrlWrite v) s) r = regValue State.reset r) ∧
    (busAccess (ctrlWrite v) s).pend = none ∧
    (∀ a < 574, (busAccess (ctrlWrite v) s).buf.read a
      = if Config.abortTakesNew s.draws a then u.buf.read a else s.buf.read a) ∧
    ((i = .nop ∨ i = .ckInit ∨ (∃ b, i = .ckFeed b) ∨ ∃ start len, i = .ckSpan start len) →
      ∀ a < 574, (busAccess (ctrlWrite v) s).buf.read a = s.buf.read a)

/-- R280: while a command is pending, writes to `CMD` and the frame window are ignored and set `ERR_BUSY`; writes to `CTRL` and
`STATUS` are performed; writes to read-only and reserved offsets are ignored without error. The model's choice (log 20): the
frame-window tail 0x63E to 0x7FF counts as the frame window here, so a write to it sets `ERR_BUSY`. -/
def Obligations.WritesWhileBusy : Prop :=
  ∀ (s : State) (v : Word), s.busy = true →
    { busAccess (cmdWrite v) s with resp := s.resp } = { s with errBusy := true } ∧
    (∀ (off : Offset) (n : Nat), 0x400 ≤ off.toNat → off.toNat < 0x800 → Access.legal ⟨off, n, .write v⟩ = true →
      { busAccess ⟨off, n, .write v⟩ s with resp := s.resp } = { s with errBusy := true }) ∧
    { busAccess (ctrlWrite v) s with resp := s.resp } = (if v.getLsbD 0 = true then s.softReset else s) ∧
    { busAccess (statusWrite v) s with resp := s.resp } = s.clearErrors v ∧
    (∀ off : Offset, off.toNat % 4 = 0 → off.toNat < 0x400 ∨ 0x800 ≤ off.toNat →
      off ∉ [0x004#12, 0x008#12, 0x00C#12] →
      { busAccess ⟨off, 4, .write v⟩ s with resp := s.resp } = s)

/-- R281, as log 5 models it: what reads return while a command is pending. Exactly: `BUSY`, the error bits, `ID`, `PARAM`,
`CTRL`, `CMD`, reserved offsets, and the frame-window tail, which reads 0 as at any time (R38, R66); everything else is the free
value of the draw, and the next read draws afresh. The data bits above the size are zero (log 3). -/
def Obligations.ReadsWhileBusy : Prop :=
  ∀ s : State, s.busy = true →
    ReadsAs s 0x000 0x46435331 ∧ ReadsAs s 0x004 0 ∧ ReadsAs s 0x00C 0 ∧ ReadsAs s 0x028 0x023E0001 ∧
    (∀ off : Offset, off.toNat % 4 = 0 →
      (0x02C ≤ off.toNat ∧ off.toNat < 0x400) ∨ 0x800 ≤ off.toNat → ReadsAs s off 0) ∧
    (∀ off ∈ [0x010#12, 0x014#12, 0x018#12, 0x01C#12, 0x020#12, 0x024#12], ReadsAs s off (Config.busyRead s.draws)) ∧
    (∃ v : Word, ReadsAs s 0x008 v ∧ v.getLsbD 0 = true ∧ v.getLsbD 8 = s.errCmd ∧ v.getLsbD 9 = s.errRange ∧
      v.getLsbD 10 = s.errBusy ∧ v.getLsbD 11 = s.errBus ∧ v.extractLsb' 12 20 = 0 ∧
      v.extractLsb' 1 7 = (Config.busyRead s.draws).extractLsb' 1 7) ∧
    (∀ (off : Offset) (n : Nat), 0x400 ≤ off.toNat → off.toNat < 0x800 → Access.legal ⟨off, n, .read⟩ = true →
      ∃ v : Word,
        busAccess ⟨off, n, .read⟩ s = { s with resp := some ⟨some v, false⟩, draws := s.draws + 1 } ∧
        (∀ k < n, v.extractLsb' (8 * k) 8
          = if off.toNat - 0x400 + k < 574 then (Config.busyRead s.draws).extractLsb' (8 * k) 8 else 0) ∧
        ∀ i, 8 * n ≤ i → v.getLsbD i = false)

/-- R74, R244: while a command is pending no access but a soft reset changes the pending command, a register, a result or a
byte: only error bits (and the model's own response and count of draws) can change. -/
def Obligations.PendingCommandCannotBeChanged : Prop :=
  ∀ (s : State) (a : Access), s.busy = true → (∀ v, a = ctrlWrite v → v.getLsbD 0 = false) →
    { (busAccess a s).lessErrors with draws := s.draws } = s.lessErrors

/-! ### The whole machine (00_scope.md R7) -/

/-- When the engine steps next and the pending word is a command, the step is exactly that command, on the state less the turn
taken; when no command is pending nothing changes; a host turn is exactly its access. -/
def Obligations.StepRunsThePendingCommand : Prop :=
  (∀ (s : State) (w : Word) (i : Instr), engineIsNext s.agenda = true → s.pend = some w → decode w = .ok i →
    step s = exec i { s with agenda := s.agenda.tail }) ∧
  (∀ s : State, engineIsNext s.agenda = true → s.pend = none → step s = .next { s with agenda := s.agenda.tail }) ∧
  (∀ (s : State) (a : Access) (rest : List Turn), s.agenda = .host a :: rest →
    step s = .next (busAccess a { s with agenda := rest }))

/-- R25: `BUSY` is set by an accepted `CMD` write and cleared by the step that completes the command or by a soft reset; it is 1
exactly while a word is pending. -/
def Obligations.BusyFollowsThePendingCommand : Prop :=
  (∀ s : State, (statusWord s).getLsbD 0 = true ↔ ∃ w, s.pend = some w) ∧
  (∀ (s : State) (w : Word) (i : Instr), s.pend = none → decode w = .ok i → i.wf = true →
    (busAccess (cmdWrite w) s).busy = true) ∧
  (∀ (i : Instr) (s : State), ∃ t, exec i s = .next t ∧ t.busy = false) ∧
  (∀ (s : State) (v : Word), v.getLsbD 0 = true → (busAccess (ctrlWrite v) s).busy = false) ∧
  State.reset.busy = false

/-- R27, R28: a step that changes `SHORT`, `LONG` or `RESULT` performs `FR.DECODE` or is a soft reset. -/
def Obligations.OnlyDecodeAndResetWriteTheResult : Prop :=
  ∀ s t : State, step s = .next t → (t.short ≠ s.short ∨ t.long ≠ s.long ∨ t.result ≠ s.result) →
    (engineIsNext s.agenda = true ∧ ∃ w n, s.pend = some w ∧ decode w = .ok (.frDecode n)) ∨
    (∃ v rest, s.agenda = .host (ctrlWrite v) :: rest ∧ v.getLsbD 0 = true)

/-- R40: a step that changes a byte of the frame buffer is a frame-window write covering that byte while no command is pending,
or performs `FR.CLEAR`, `FR.ENCODE`, `FR.SEAL` or an `FR.DECODE` of 1 to 573 bytes, or is a soft reset that aborts one of these
(R273). -/
def Obligations.OnlyNamedTurnsWriteTheBuffer : Prop :=
  ∀ (s t : State) (a : Nat), a < 574 → step s = .next t → t.buf.read a ≠ s.buf.read a →
    (s.pend = none ∧ ∃ off n v rest, s.agenda = .host ⟨off, n, .write v⟩ :: rest ∧ 0x400 ≤ off.toNat ∧
      off.toNat < 0x800 ∧ off.toNat - 0x400 ≤ a ∧ a < off.toNat - 0x400 + n) ∨
    (∃ w i, s.pend = some w ∧ decode w = .ok i ∧
      (i = .frClear ∨ i = .frEncode ∨ i = .frSeal ∨ ∃ n : BitVec 16, i = .frDecode n ∧ n ≠ 0 ∧ n.toNat < 574) ∧
      (engineIsNext s.agenda = true ∨ ∃ v rest, s.agenda = .host (ctrlWrite v) :: rest ∧ v.getLsbD 0 = true))

/-- The invariant holds after power-on reset. -/
def Obligations.ResetHasTheInvariant : Prop := State.reset.Inv

/-- Every step keeps the invariant: the buffer stays in canonical form, `PLEN` at most 512, the pending word an accepted command,
`SHORT` and `LONG` consistent with each other and with `RESULT`. -/
def Obligations.EveryStepKeepsTheInvariant : Prop := ∀ s t : State, s.Inv → step s = .next t → t.Inv

/-- R240: the block never stops: from every state with the invariant a step answers a next state. -/
def Obligations.NeverStops : Prop := ∀ s : State, s.Inv → ∃ t, step s = .next t

/-- R285's fairness, as log 1 models it. From every state with the invariant the turns on the agenda are all taken, and after them
no command is pending. After the host's turns before the engine's first, if none of them is a soft reset, the pending command is
still pending, no register, result or byte has changed, and the engine's turn performs it to completion. -/
def Obligations.AcceptedCommandsComplete : Prop :=
  (∀ s : State, s.Inv →
    ∃ t : State, Host.Core.run core (s.agenda.length + 1) s = .next t ∧ t.agenda = [] ∧ t.busy = false) ∧
  (∀ (s : State) (w : Word) (i : Instr) (first : List Access) (rest : List Turn),
    s.pend = some w → decode w = .ok i → s.agenda = first.map .host ++ rest → engineIsNext rest = true →
    (∀ v, ctrlWrite v ∈ first → v.getLsbD 0 = false) →
    ∃ u t : State, Host.Core.run core first.length s = .next u ∧ u.agenda = rest ∧
      { u.lessErrors with agenda := s.agenda, draws := s.draws } = s.lessErrors ∧
      step u = exec i { u with agenda := rest.tail } ∧ step u = .next t ∧ t.busy = false)
end

