-- ==== Sys2Proof/Laws/Memory.lean ====
section
/-! SUPPORT. The frame buffer: what each operation leaves at every offset, and that each keeps the canonical form. -/

namespace Sys2Proof.Machine

/-- The layout's numbers, for `omega`. -/
theorem layout :
    Config.frameSize = 574 ∧ Config.hdrLen = 62 ∧ Config.payloadCap = 512 ∧ Config.payloadChars = 511 ∧
      Config.addrField = 18 ∧ Config.addrChars = 17 ∧ typeOff = 0 ∧ subtypeOff = 1 ∧ durationOff = 2 ∧
      address1Off = 4 ∧ address2Off = 22 ∧ address3Off = 40 ∧ integrityOff = 58 ∧ payloadOff = 62 := by decide

/-! ### What is written where -/

@[simp] theorem written_nil (a : Nat) : Memory.written [] a = none := rfl

theorem read_of_written (m m' : Memory) (a a' : Nat) (h : m.written a = m'.written a') (ha : a = a') :
    m.read a = m'.read a' := by
  subst ha; simp only [Memory.read, h]

/-- A byte nothing has written since power-on reads as the free value of its offset. -/
theorem read_unwritten (m : Memory) (a : Nat) (h : m.written a = none) : m.read a = Config.powerOnByte a := by
  simp [Memory.read, h]

@[simp] theorem written_cons (c : Host.Cell) (m : Memory) (a : Nat) :
    Memory.written (c :: m) a = if c.1 = a then some c.2 else Memory.written m a := by
  by_cases h : c.1 = a <;> simp [Memory.written, h]

theorem written_append (l l' : Memory) (a : Nat) :
    Memory.written (l ++ l') a = (Memory.written l a).or (Memory.written l' a) := by
  simp [Memory.written, List.find?_append, Option.map_or]

/-- Looking up in the entries a test on offsets keeps. -/
theorem written_filter (m : Memory) (p : Nat → Bool) (a : Nat) :
    Memory.written (m.filter fun c => p c.1) a = if p a then m.written a else none := by
  induction m with
  | nil => simp
  | cons c m ih =>
    rw [List.filter_cons]
    by_cases hc : c.1 = a
    · subst hc
      cases hp : p c.1 with
      | true => simp
      | false => simpa [hp] using ih
    · cases hp : p c.1 with
      | true => simpa [hc] using ih
      | false => simpa [hc] using ih

/-- Looking up in a run of consecutive bytes. -/
theorem written_run (start : Nat) (f : Nat → Byte) (n a : Nat) :
    Memory.written ((List.range n).map fun k => (start + k, f k)) a
      = if start ≤ a ∧ a < start + n then some (f (a - start)) else none := by
  induction n with
  | zero => rw [if_neg (by omega)]; rfl
  | succ n ih =>
    rw [List.range_succ, List.map_append, written_append, ih]
    by_cases h : start ≤ a ∧ a < start + n
    · rw [if_pos h, if_pos (by omega)]; rfl
    · rw [if_neg h]
      by_cases h' : a = start + n
      · subst h'; simp
      · rw [if_neg (by omega)]; simp [Ne.symm h']

/-- The one lemma about writing: the bytes written, and every other offset as before. -/
theorem written_put (m : Memory) (start : Nat) (bs : List Byte) (a : Nat) :
    (m.put start bs).written a
      = if start ≤ a ∧ a < start + bs.length then some (bs.getD (a - start) 0) else m.written a := by
  unfold Memory.put
  split
  · next h =>
    subst h
    rw [if_neg (by simp)]
  · rw [written_append, written_append, written_run start (fun k => bs.getD k 0),
      written_filter m (fun x => decide (x < start)) a,
      written_filter m (fun x => decide (start + bs.length ≤ x)) a]
    simp only [decide_eq_true_eq]
    by_cases hlo : a < start
    · have h1 : ¬ (start ≤ a ∧ a < start + bs.length) := by omega
      rw [if_pos hlo, if_neg h1, if_neg h1, if_neg (show ¬ start + bs.length ≤ a by omega)]
      simp
    · by_cases hhi : start + bs.length ≤ a
      · have h1 : ¬ (start ≤ a ∧ a < start + bs.length) := by omega
        rw [if_neg hlo, if_neg h1, if_neg h1, if_pos hhi]
        simp
      · have h1 : start ≤ a ∧ a < start + bs.length := by omega
        rw [if_neg hlo, if_pos h1, if_pos h1, if_neg hhi]
        simp

/-- Reading after a write: the byte stored, or the byte of before. -/
theorem read_put (m : Memory) (start : Nat) (bs : List Byte) (a : Nat) :
    (m.put start bs).read a = if start ≤ a ∧ a < start + bs.length then bs.getD (a - start) 0 else m.read a := by
  simp only [Memory.read, written_put]
  split <;> simp

theorem read_put_of_outside (m : Memory) (start : Nat) (bs : List Byte) (a : Nat)
    (h : a < start ∨ start + bs.length ≤ a) : (m.put start bs).read a = m.read a := by
  rw [read_put, if_neg (by omega)]

theorem written_zero (m : Memory) (start n a : Nat) :
    (m.zero start n).written a = if start ≤ a ∧ a < start + n then some 0 else m.written a := by
  rw [Memory.zero, written_put, List.length_replicate]
  split
  · next h =>
    rw [List.getD_eq_getElem?_getD, List.getElem?_replicate]
    split <;> rfl
  · rfl

theorem read_zero (m : Memory) (start n a : Nat) :
    (m.zero start n).read a = if start ≤ a ∧ a < start + n then 0 else m.read a := by
  simp only [Memory.read, written_zero]
  split <;> simp

@[simp] theorem leBytes_length (n : Nat) (v : Word) : (leBytes n v).length = n := by simp [leBytes]

theorem leBytes_getD (n k : Nat) (v : Word) (h : k < n) : (leBytes n v).getD k 0 = v.extractLsb' (8 * k) 8 := by
  simp [leBytes, List.getD_eq_getElem?_getD, List.getElem?_map, List.getElem?_range h]

/-- `MemWrite` stores the value's bytes, lowest first, and nothing else; bytes beyond the buffer are ignored. -/
theorem written_memWrite (m : Memory) (off n : Nat) (v : Word) (a : Nat) :
    (memWrite m off n v).written a
      = if off ≤ a ∧ a < off + n ∧ a < Config.frameSize then some (v.extractLsb' (8 * (a - off)) 8)
        else m.written a := by
  rw [memWrite, written_put, List.length_take, leBytes_length]
  by_cases h : off ≤ a ∧ a < off + n ∧ a < Config.frameSize
  · have h' : off ≤ a ∧ a < off + min (Config.frameSize - off) n := by omega
    rw [if_pos h, if_pos h', List.getD_eq_getElem?_getD, List.getElem?_take,
      if_pos (show a - off < Config.frameSize - off by omega), ← List.getD_eq_getElem?_getD,
      leBytes_getD n (a - off) v (by omega)]
  · have h' : ¬ (off ≤ a ∧ a < off + min (Config.frameSize - off) n) := by omega
    rw [if_neg h, if_neg h']

theorem read_memWrite (m : Memory) (off n : Nat) (v : Word) (a : Nat) :
    (memWrite m off n v).read a
      = if off ≤ a ∧ a < off + n ∧ a < Config.frameSize then v.extractLsb' (8 * (a - off)) 8 else m.read a := by
  simp only [Memory.read, written_memWrite]
  split <;> simp

/-- Looking up in entries built one an offset, in order. -/
theorem written_filterMap_range (f : Nat → Option Byte) (n a : Nat) :
    Memory.written ((List.range n).filterMap fun i => (f i).map fun b => (i, b)) a
      = if a < n then f a else none := by
  induction n with
  | zero => simp
  | succ n ih =>
    rw [List.range_succ, List.filterMap_append, written_append, ih]
    by_cases h : a < n
    · have h' : a < n + 1 := by omega
      cases hf : f a with
      | some b => simp [h, h']
      | none =>
        simp only [h, h', if_true, Option.none_or]
        cases hn : f n with
        | none => simp [hn]
        | some b => simp [hn, Memory.written]; omega
    · by_cases h' : a = n
      · subst h'
        cases hf : f a <;> simp [hf, Memory.written]
      · have h'' : ¬ a < n + 1 := by omega
        cases hn : f n with
        | none => simp [h, h'', hn]
        | some b => simp [h, h'', hn, Memory.written]; omega

/-- A blend holds at each offset of the buffer what the chosen one of the two holds. -/
theorem written_blend (pick : Nat → Bool) (old new : Memory) (a : Nat) (h : a < Config.frameSize) :
    (blend pick old new).written a = (if pick a then new else old).written a := by
  have := written_filterMap_range (fun i => (if pick i then new else old).written i) Config.frameSize a
  rw [if_pos h] at this
  exact this

theorem read_blend (pick : Nat → Bool) (old new : Memory) (a : Nat) (h : a < Config.frameSize) :
    (blend pick old new).read a = if pick a then new.read a else old.read a := by
  simp only [Memory.read, written_blend pick old new a h]
  split <;> rfl

/-! ### The canonical form -/

theorem wf_iff (m : Memory) :
    m.wf = true ↔ (m.Pairwise fun c d => c.1 < d.1) ∧ ∀ c ∈ m, c.1 < Config.frameSize := by
  simp [Memory.wf, List.all_eq_true]

@[simp] theorem wf_nil : Memory.wf [] = true := rfl

/-- Writing inside the buffer keeps the canonical form. -/
theorem wf_put (m : Memory) (start : Nat) (bs : List Byte) (hm : m.wf = true)
    (h : start + bs.length ≤ Config.frameSize ∨ bs = []) : (m.put start bs).wf = true := by
  rw [wf_iff] at hm
  unfold Memory.put
  split
  · rw [wf_iff]; exact hm
  · next hne =>
    have h : start + bs.length ≤ Config.frameSize := h.resolve_right hne
    rw [wf_iff]
    refine ⟨?_, ?_⟩
    · rw [List.pairwise_append, List.pairwise_append]
      refine ⟨⟨hm.1.filter _, ?_, ?_⟩, hm.1.filter _, ?_⟩
      · rw [List.pairwise_map]
        exact (List.pairwise_lt_range).imp (by intro a b hab; simpa using hab)
      · intro c hc d hd
        simp only [List.mem_filter, decide_eq_true_eq, List.mem_map, List.mem_range] at hc hd
        obtain ⟨k, -, rfl⟩ := hd
        simp; omega
      · intro c hc d hd
        simp only [List.mem_append, List.mem_filter, decide_eq_true_eq, List.mem_map, List.mem_range] at hc hd
        obtain ⟨-, hc⟩ | ⟨k, hk, rfl⟩ := hc
        · omega
        · simp; omega
    · intro c hc
      simp only [List.mem_append, List.mem_filter, List.mem_map, List.mem_range] at hc
      obtain (⟨hc, -⟩ | ⟨k, hk, rfl⟩) | ⟨hc, -⟩ := hc
      · exact hm.2 c hc
      · simp; omega
      · exact hm.2 c hc

theorem wf_zero (m : Memory) (start n : Nat) (hm : m.wf = true) (h : start + n ≤ Config.frameSize) :
    (m.zero start n).wf = true :=
  wf_put m start _ hm (Or.inl (by simpa using h))

theorem wf_memWrite (m : Memory) (off n : Nat) (v : Word) (hm : m.wf = true) : (memWrite m off n v).wf = true := by
  apply wf_put m off _ hm
  by_cases h : off ≤ Config.frameSize
  · left; rw [List.length_take]; omega
  · right
    have : Config.frameSize - off = 0 := by omega
    rw [this, List.take_zero]

theorem wf_blend (pick : Nat → Bool) (old new : Memory) : (blend pick old new).wf = true := by
  rw [wf_iff]
  refine ⟨?_, ?_⟩
  · unfold blend
    rw [List.pairwise_filterMap]
    refine (List.pairwise_lt_range).imp ?_
    intro a b hab c hc d hd
    simp only [Option.map_eq_some_iff] at hc hd
    obtain ⟨_, -, rfl⟩ := hc
    obtain ⟨_, -, rfl⟩ := hd
    exact hab
  · intro c hc
    simp only [blend, List.mem_filterMap, List.mem_range, Option.map_eq_some_iff] at hc
    obtain ⟨i, hi, _, -, rfl⟩ := hc
    exact hi

/-- In canonical form equal contents are equal data. -/
theorem wf_ext (m m' : Memory) (hm : m.wf = true) (hm' : m'.wf = true)
    (h : ∀ a, m.written a = m'.written a) : m = m' := by
  rw [wf_iff] at hm hm'
  replace hm := hm.1
  replace hm' := hm'.1
  induction m generalizing m' with
  | nil =>
    cases m' with
    | nil => rfl
    | cons d m' => simpa [Memory.written] using h d.1
  | cons c m ih =>
    cases m' with
    | nil => simpa [Memory.written] using h c.1
    | cons d m' =>
      rw [List.pairwise_cons] at hm hm'
      have key : ∀ (c : Host.Cell) (l : Memory) (a : Nat), (∀ x ∈ l, c.1 < x.1) → a ≤ c.1 →
          Memory.written (c :: l) a = if a = c.1 then some c.2 else none := by
        intro c l a hl ha
        by_cases hac : a = c.1
        · subst hac; simp [Memory.written]
        · have hnone : l.find? (fun x => x.1 == a) = none := by
            rw [List.find?_eq_none]
            intro x hx
            have := hl x hx
            simp; omega
          have hca : ¬ c.1 = a := by omega
          simp [Memory.written, hca, hac, hnone]
      have hcd : c.1 = d.1 := by
        rcases Nat.lt_trichotomy c.1 d.1 with hlt | heq | hgt
        · have h1 := h c.1
          rw [key c m c.1 hm.1 le_rfl, key d m' c.1 hm'.1 hlt.le] at h1
          simp [Nat.ne_of_lt hlt] at h1
        · exact heq
        · have h1 := h d.1
          rw [key c m d.1 hm.1 hgt.le, key d m' d.1 hm'.1 le_rfl] at h1
          simp [Nat.ne_of_lt hgt] at h1
      have hv : c.2 = d.2 := by
        have h1 := h c.1
        rw [key c m c.1 hm.1 le_rfl, key d m' c.1 hm'.1 hcd.le] at h1
        simpa [hcd] using h1
      have hceq : c = d := Prod.ext hcd hv
      subst hceq
      congr 1
      refine ih m' ?_ hm.2 hm'.2
      intro a
      have h1 := h a
      by_cases hac : c.1 = a
      · subst hac
        have n1 : m.find? (fun x => x.1 == c.1) = none := by
          rw [List.find?_eq_none]; intro x hx; have := hm.1 x hx; simp; omega
        have n2 : m'.find? (fun x => x.1 == c.1) = none := by
          rw [List.find?_eq_none]; intro x hx; have := hm'.1 x hx; simp; omega
        simp [Memory.written, n1, n2]
      · simpa [Memory.written, List.find?_cons, hac] using h1

/-! ### Byte strings and values -/

@[simp] theorem bytes_length (m : Memory) (off n : Nat) : (m.bytes off n).length = n := by simp [Memory.bytes]

theorem bytes_getElem? (m : Memory) (off n k : Nat) (h : k < n) : (m.bytes off n)[k]? = some (m.read (off + k)) := by
  simp [Memory.bytes, List.getElem?_map, List.getElem?_range h]

theorem bytes_congr (m m' : Memory) (off n : Nat) (h : ∀ k < n, m.read (off + k) = m'.read (off + k)) :
    m.bytes off n = m'.bytes off n := by
  simp only [Memory.bytes]
  exact List.map_congr_left fun k hk => h k (List.mem_range.mp hk)

/-- `takeWhile` stops at the first element that fails the test, or at the end. -/
theorem takeWhile_length_spec {α : Type} (p : α → Bool) (l : List α) :
    (∀ k, (hk : k < (l.takeWhile p).length) → ∃ x, l[k]? = some x ∧ p x = true) ∧
      (∀ x, l[(l.takeWhile p).length]? = some x → p x = false) := by
  induction l with
  | nil => simp
  | cons y l ih =>
    cases hy : p y with
    | false => simp [hy]
    | true =>
      refine ⟨?_, ?_⟩
      · intro k hk
        cases k with
        | zero => exact ⟨y, rfl, hy⟩
        | succ k =>
          simp only [List.takeWhile_cons, hy, if_true, List.length_cons] at hk
          simpa using ih.1 k (by omega)
      · intro x hx
        simp only [List.takeWhile_cons, hy, if_true, List.length_cons, List.getElem?_cons_succ] at hx
        exact ih.2 x hx

theorem strnlen_le (m : Memory) (off max : Nat) : strnlen m off max ≤ max := by
  have h := (List.takeWhile_sublist (fun b => b != 0) (l := m.bytes off max)).length_le
  simpa [strnlen] using h

theorem strnlen_nonzero (m : Memory) (off max k : Nat) (h : k < strnlen m off max) : m.read (off + k) ≠ 0 := by
  obtain ⟨x, hx, hp⟩ := (takeWhile_length_spec (fun b => b != 0) (m.bytes off max)).1 k h
  have := strnlen_le m off max
  rw [bytes_getElem? m off max k (by omega)] at hx
  injection hx with hx
  subst hx
  simpa using hp

theorem strnlen_stop (m : Memory) (off max : Nat) (h : strnlen m off max < max) :
    m.read (off + strnlen m off max) = 0 := by
  have := (takeWhile_length_spec (fun b => b != 0) (m.bytes off max)).2 (m.read (off + strnlen m off max))
    (bytes_getElem? m off max _ h)
  simpa using this

/-- `strnlen` is the only number that is a first zero, or `max` where there is none. -/
theorem strnlen_unique (m : Memory) (off max k : Nat) (hk : k ≤ max) (hne : ∀ j < k, m.read (off + j) ≠ 0)
    (hz : k < max → m.read (off + k) = 0) : strnlen m off max = k := by
  have hle := strnlen_le m off max
  rcases Nat.lt_trichotomy (strnlen m off max) k with h | h | h
  · exact absurd (strnlen_stop m off max (by omega)) (hne _ h)
  · exact h
  · exact absurd (hz (by omega)) (strnlen_nonzero m off max k h)

theorem strnlen_congr (m m' : Memory) (off max : Nat) (h : ∀ k < max, m.read (off + k) = m'.read (off + k)) :
    strnlen m off max = strnlen m' off max := by
  rw [strnlen, bytes_congr m m' off max h, strnlen]

theorem payloadLen_le (m : Memory) : payloadLen m ≤ Config.payloadCap := by
  unfold payloadLen
  split
  · exact strnlen_le m payloadOff Config.payloadCap
  · exact Nat.zero_le _

theorem memRead_congr (m m' : Memory) (off n : Nat)
    (h : ∀ k < n, off + k < Config.frameSize → m.read (off + k) = m'.read (off + k)) :
    memRead m off n = memRead m' off n := by
  unfold memRead
  congr 1
  refine List.map_congr_left fun k hk => ?_
  unfold windowByte
  split
  · next hlt => exact h k (List.mem_range.mp hk) hlt
  · rfl

/-- Bit `i` of a little-endian value is bit `i % 8` of byte `i / 8`. -/
theorem leValue_getLsbD (bs : List Byte) (i : Nat) (hi : i < 32) :
    (leValue bs).getLsbD i = (bs.getD (i / 8) 0).getLsbD (i % 8) := by
  induction bs generalizing i with
  | nil => simp [leValue]
  | cons b bs ih =>
    rw [leValue, BitVec.getLsbD_or, BitVec.getLsbD_shiftLeft, BitVec.getLsbD_setWidth]
    by_cases h : i < 8
    · have h0 : i / 8 = 0 := by omega
      have h1 : i % 8 = i := by omega
      simp [h, hi, h0, h1]
    · have h0 : i / 8 = (i - 8) / 8 + 1 := by omega
      have h1 : i % 8 = (i - 8) % 8 := by omega
      rw [h0, h1, List.getD_cons_succ, ← ih (i - 8) (by omega), BitVec.getLsbD_of_ge b i (by omega)]
      simp [h, hi]

/-- Byte `k` of the little-endian value of `n` bytes. -/
theorem leValue_byte (f : Nat → Byte) (n k : Nat) (hk : k < n) (hk4 : k < 4) :
    (leValue ((List.range n).map f)).extractLsb' (8 * k) 8 = f k := by
  apply BitVec.eq_of_getLsbD_eq
  intro i hi
  have h0 : (8 * k + i) / 8 = k := by omega
  have h1 : (8 * k + i) % 8 = i := by omega
  rw [BitVec.getLsbD_extractLsb', leValue_getLsbD _ _ (by omega), h0, h1, List.getD_eq_getElem?_getD,
    List.getElem?_map, List.getElem?_range hk]
  simp [hi]

/-- The bits of the little-endian value of `n` bytes beyond them are zero. -/
theorem leValue_high (f : Nat → Byte) (n i : Nat) (hi : 8 * n ≤ i) : (leValue ((List.range n).map f)).getLsbD i = false := by
  by_cases h : i < 32
  · rw [leValue_getLsbD _ _ h, List.getD_eq_getElem?_getD, List.getElem?_map, List.getElem?_eq_none (by simp; omega)]
    simp
  · exact BitVec.getLsbD_of_ge _ _ (by omega)

/-- Byte `k` of the value `MemRead` returns is the byte at `off + k` (20_memory.md R62). -/
theorem memRead_byte (m : Memory) (off n k : Nat) (hk : k < n) (hk4 : k < 4) :
    (memRead m off n).extractLsb' (8 * k) 8 = windowByte m (off + k) := leValue_byte _ n k hk hk4

/-- The bits of the value beyond the bytes read are zero. -/
theorem memRead_high (m : Memory) (off n i : Nat) (hi : 8 * n ≤ i) : (memRead m off n).getLsbD i = false :=
  leValue_high _ n i hi

/-- Two words with the same four bytes are equal. -/
theorem word_eq_of_bytes (v w : Word) (h : ∀ k < 4, v.extractLsb' (8 * k) 8 = w.extractLsb' (8 * k) 8) : v = w := by
  apply BitVec.eq_of_getLsbD_eq
  intro i hi
  have hb := congrArg (fun b => b.getLsbD (i % 8)) (h (i / 8) (by omega))
  simp only [BitVec.getLsbD_extractLsb'] at hb
  have h0 : 8 * (i / 8) + i % 8 = i := by omega
  have h1 : i % 8 < 8 := by omega
  simpa [h0, h1] using hb

/-- A word written inside the buffer is read back. -/
theorem memRead_memWrite (m : Memory) (off : Nat) (v : Word) (h : off + 4 ≤ Config.frameSize) :
    memRead (memWrite m off 4 v) off 4 = v := by
  apply word_eq_of_bytes
  intro k hk
  rw [memRead_byte _ _ _ _ hk hk, windowByte, if_pos (by omega), read_memWrite, if_pos (by omega)]
  congr 2
  omega

end Sys2Proof.Machine
end

