-- ==== Sys2Proof/Laws/Engine.lean ====
section
/-! SUPPORT. The checksum engine: what offering bytes does, and the frame digest (40_checksum.md, 41_frame_codec.md R172). -/

namespace Sys2Proof.Machine

/-! ### Offering bytes -/

theorem offer_term (zs : Bool) (e : Engine) (b : Byte) (h : e.term = true) : e.offer zs b = e := by
  simp [Engine.offer, h]

theorem offer_zero (e : Engine) (h : e.term = false) : e.offer true 0 = { e with term := true } := by
  simp [Engine.offer, h]

theorem offer_mixed (zs : Bool) (e : Engine) (b : Byte) (h : e.term = false) (hb : zs = false ∨ b ≠ 0) :
    e.offer zs b = ⟨mix e.acc b, false, e.cnt + 1⟩ := by
  cases zs with
  | false => simp [Engine.offer, h]
  | true => simpa [Engine.offer, h] using hb

@[simp] theorem feed_nil (zs : Bool) (e : Engine) : e.feed zs [] = e := rfl

@[simp] theorem feed_cons (zs : Bool) (e : Engine) (b : Byte) (bs : List Byte) :
    e.feed zs (b :: bs) = (e.offer zs b).feed zs bs := rfl

theorem feed_append (zs : Bool) (e : Engine) (s t : List Byte) : e.feed zs (s ++ t) = (e.feed zs s).feed zs t := by
  simp [Engine.feed, List.foldl_append]

/-- A terminated engine refuses every byte. -/
theorem feed_term (zs : Bool) (e : Engine) (bs : List Byte) (h : e.term = true) : e.feed zs bs = e := by
  induction bs with
  | nil => rfl
  | cons b bs ih => rw [feed_cons, offer_term zs e b h, ih]

/-- Bytes after a zero byte are never mixed. -/
theorem feed_zero_cons (e : Engine) (bs : List Byte) : e.feed true (0 :: bs) = e.feed true [0] := by
  cases h : e.term with
  | true => rw [feed_term _ _ _ h, feed_term _ _ _ h]
  | false => rw [feed_cons, feed_cons, feed_nil, feed_term]; rw [offer_zero e h]

theorem feed_append_zero (e : Engine) (s t : List Byte) : e.feed true (s ++ 0 :: t) = e.feed true (s ++ [0]) := by
  rw [feed_append, feed_append, feed_zero_cons]

/-- Feeding a string with no zero byte mixes and counts every byte. -/
theorem feed_nonzero (e : Engine) (s : List Byte) (h : e.term = false) (hs : ∀ b ∈ s, b ≠ 0) :
    (e.feed true s).term = false ∧ (e.feed true s).cnt = e.cnt + BitVec.ofNat 32 s.length := by
  induction s generalizing e with
  | nil => simp [h]
  | cons b s ih =>
    rw [feed_cons, offer_mixed true e b h (Or.inr (hs b (by simp)))]
    obtain ⟨ht, hc⟩ := ih ⟨mix e.acc b, false, e.cnt + 1⟩ rfl fun x hx => hs x (List.mem_cons_of_mem _ hx)
    refine ⟨ht, ?_⟩
    rw [hc, List.length_cons, BitVec.add_assoc, BitVec.ofNat_add, BitVec.add_comm (1 : Word)]
    rfl

/-- Feeding a string with no zero byte and then a zero byte: the digest is the string's, the engine is terminated. -/
theorem feed_nonzero_zero (s t : List Byte) (hs : ∀ b ∈ s, b ≠ 0) :
    Engine.init.feed true (s ++ 0 :: t)
      = { Engine.init.feed true s with term := true } := by
  obtain ⟨ht, -⟩ := feed_nonzero Engine.init s rfl hs
  rw [feed_append_zero, feed_append, feed_cons, feed_nil, offer_zero _ ht]

/-! ### The hashed span -/

theorem hashedSpan_congr (m m' : Memory) (h : ∀ a, a < 58 ∨ (62 ≤ a ∧ a < Config.frameSize) → m.read a = m'.read a) :
    hashedSpan m = hashedSpan m' := by
  have hp : payloadLen m = payloadLen m' := by
    unfold payloadLen
    rw [h typeOff (by decide),
      strnlen_congr m m' payloadOff Config.payloadCap fun k hk => h _ (by have := layout; omega)]
  unfold hashedSpan
  rw [hp]
  refine List.map_congr_left fun i hi => ?_
  have hle := payloadLen_le m'
  have hi := List.mem_range.mp hi
  split
  · rfl
  · exact h i (by have := layout; omega)

/-- The frame digest does not depend on the integrity bytes. -/
theorem digestEngine_congr (zs : Bool) (m m' : Memory)
    (h : ∀ a, a < 58 ∨ (62 ≤ a ∧ a < Config.frameSize) → m.read a = m'.read a) :
    digestEngine zs m = digestEngine zs m' := by
  unfold digestEngine
  rw [hashedSpan_congr m m' h]

theorem frameDigest_congr (zs : Bool) (m m' : Memory)
    (h : ∀ a, a < 58 ∨ (62 ≤ a ∧ a < Config.frameSize) → m.read a = m'.read a) :
    frameDigest zs m = frameDigest zs m' := by
  unfold frameDigest
  rw [digestEngine_congr zs m m' h]

theorem payloadLen_congr (m m' : Memory) (h0 : m.read typeOff = m'.read typeOff)
    (h : ∀ k < Config.payloadCap, m.read (payloadOff + k) = m'.read (payloadOff + k)) :
    payloadLen m = payloadLen m' := by
  unfold payloadLen
  rw [h0, strnlen_congr m m' payloadOff Config.payloadCap h]

/-- The hashed span is the header bytes before its first zero, a zero, and a rest that is never mixed. -/
theorem hashedSpan_split (m : Memory) :
    ∃ rest, hashedSpan m = m.bytes 0 (strnlen m 0 58) ++ 0 :: rest := by
  have hz := strnlen_le m 0 58
  obtain ⟨n, hn⟩ : ∃ n, Config.hdrLen + payloadLen m = strnlen m 0 58 + (n + 1) :=
    ⟨Config.hdrLen + payloadLen m - strnlen m 0 58 - 1, by have := layout; omega⟩
  refine ⟨(List.range n).map fun i =>
    if 58 ≤ strnlen m 0 58 + (i + 1) ∧ strnlen m 0 58 + (i + 1) ≤ 61 then 0 else m.read (strnlen m 0 58 + (i + 1)), ?_⟩
  unfold hashedSpan
  rw [hn, List.range_add, List.map_append, List.map_map, List.range_succ_eq_map, List.map_cons, List.map_map]
  congr 1
  · simp only [Memory.bytes, Nat.zero_add]
    refine List.map_congr_left fun i hi => ?_
    rw [if_neg (by have := List.mem_range.mp hi; omega)]
  · congr 1
    simp only [Function.comp_apply, Nat.add_zero]
    split
    · rfl
    · have := strnlen_stop m 0 58 (by omega)
      simpa using this

theorem bytes_before_zero (m : Memory) (off max : Nat) : ∀ b ∈ m.bytes off (strnlen m off max), b ≠ 0 := by
  intro b hb
  simp only [Memory.bytes, List.mem_map, List.mem_range] at hb
  obtain ⟨k, hk, rfl⟩ := hb
  exact strnlen_nonzero m off max k hk

end Sys2Proof.Machine
end

