-- ==== Sys2Proof/Laws/Frame.lean ====
section
/-! SUPPORT. The frame operations' buffers: what canonicalising, zero filling and storing the integrity leave at every offset,
and that each keeps the canonical form (41_frame_codec.md R180, R185, R190). -/

namespace Sys2Proof.Machine

theorem read_canonAddress (m : Memory) (base a : Nat) :
    (canonAddress m base).read a
      = if base + strnlen m base Config.addrChars ≤ a ∧ a < base + Config.addrField then 0 else m.read a := by
  have hl := layout
  have h := strnlen_le m base Config.addrChars
  rw [canonAddress, read_zero]
  exact if_congr (by omega) rfl rfl

theorem read_canonAddress_outside (m : Memory) (base a : Nat) (h : a < base ∨ base + Config.addrField ≤ a) :
    (canonAddress m base).read a = m.read a := by
  rw [read_canonAddress, if_neg (by omega)]

theorem read_canonPayload (m : Memory) (a : Nat) :
    (canonPayload m).read a
      = if payloadOff + (if m.read typeOff = 0x10 then strnlen m payloadOff Config.payloadChars else 0) ≤ a ∧
            a < Config.frameSize then 0 else m.read a := by
  have hl := layout
  have h := strnlen_le m payloadOff Config.payloadChars
  by_cases hd : m.read typeOff = 0x10
  · rw [canonPayload, if_pos hd, if_pos hd, read_zero]
    exact if_congr (by omega) rfl rfl
  · rw [canonPayload, if_neg hd, if_neg hd, read_zero]
    exact if_congr (by omega) rfl rfl

/-- An address field's canonical form reads the field as it was, the operations on the other fields leaving it alone. -/
theorem strnlen_eq_of_reads (m m' : Memory) (off max : Nat) (h : ∀ a, off ≤ a → a < off + max → m'.read a = m.read a) :
    strnlen m' off max = strnlen m off max :=
  strnlen_congr m' m off max fun k hk => h _ (by omega) (by omega)

/-- Every byte of the canonical frame before its integrity is filled. -/
theorem read_canonFrame (m : Memory) (a : Nat) :
    (canonFrame m).read a =
      if 1 ≤ a ∧ a < 4 then 0
      else if 4 ≤ a ∧ a < 22 then (if a < 4 + strnlen m 4 17 then m.read a else 0)
      else if 22 ≤ a ∧ a < 40 then (if a < 22 + strnlen m 22 17 then m.read a else 0)
      else if 40 ≤ a ∧ a < 58 then (if a < 40 + strnlen m 40 17 then m.read a else 0)
      else if 62 ≤ a ∧ a < 574 then
        (if m.read 0 = 0x10 ∧ a < 62 + strnlen m 62 511 then m.read a else 0)
      else m.read a := by
  let m1 := m.zero subtypeOff 3
  let m2 := canonAddress m1 address1Off
  let m3 := canonAddress m2 address2Off
  let m4 := canonAddress m3 address3Off
  have r1 : ∀ x, m1.read x = if 1 ≤ x ∧ x < 4 then 0 else m.read x := fun x => read_zero m 1 3 x
  have s2 : strnlen m1 4 17 = strnlen m 4 17 :=
    strnlen_eq_of_reads _ _ _ _ fun x _ _ => by rw [r1, if_neg (by omega)]
  have r2 : ∀ x, m2.read x = if 4 + strnlen m 4 17 ≤ x ∧ x < 22 then 0 else m1.read x := fun x => by
    rw [← s2]; exact read_canonAddress m1 4 x
  have s3 : strnlen m2 22 17 = strnlen m 22 17 :=
    strnlen_eq_of_reads _ _ _ _ fun x _ _ => by rw [r2, if_neg (by omega), r1, if_neg (by omega)]
  have r3 : ∀ x, m3.read x = if 22 + strnlen m 22 17 ≤ x ∧ x < 40 then 0 else m2.read x := fun x => by
    rw [← s3]; exact read_canonAddress m2 22 x
  have s4 : strnlen m3 40 17 = strnlen m 40 17 :=
    strnlen_eq_of_reads _ _ _ _ fun x _ _ => by
      rw [r3, if_neg (by omega), r2, if_neg (by omega), r1, if_neg (by omega)]
  have r4 : ∀ x, m4.read x = if 40 + strnlen m 40 17 ≤ x ∧ x < 58 then 0 else m3.read x := fun x => by
    rw [← s4]; exact read_canonAddress m3 40 x
  have high : ∀ x, x = 0 ∨ 58 ≤ x → m4.read x = m.read x := fun x hx => by
    rw [r4, if_neg (by omega), r3, if_neg (by omega), r2, if_neg (by omega), r1, if_neg (by omega)]
  have s5 : strnlen m4 62 511 = strnlen m 62 511 :=
    strnlen_eq_of_reads _ _ _ _ fun x _ _ => high x (by omega)
  have r5 : (canonFrame m).read a
      = if 62 + (if m.read 0 = 0x10 then strnlen m 62 511 else 0) ≤ a ∧ a < 574 then 0 else m4.read a := by
    have h := read_canonPayload m4 a
    rw [show m4.read typeOff = m.read 0 from high 0 (Or.inl rfl),
      show strnlen m4 payloadOff Config.payloadChars = strnlen m 62 511 from s5] at h
    exact h
  rw [r5, r4, r3, r2, r1]
  have h4 := strnlen_le m 4 17
  have h22 := strnlen_le m 22 17
  have h40 := strnlen_le m 40 17
  have h62 := strnlen_le m 62 511
  by_cases c0 : a = 0
  · subst c0; simp
  by_cases c1 : 1 ≤ a ∧ a < 4
  · rw [if_neg (by omega), if_neg (by omega), if_neg (by omega), if_neg (by omega), if_pos c1, if_pos c1]
  rw [if_neg c1, if_neg c1]
  by_cases c2 : a < 22
  · rw [if_neg (by omega), if_neg (by omega), if_neg (by omega), if_pos (show 4 ≤ a ∧ a < 22 by omega)]
    by_cases c : a < 4 + strnlen m 4 17
    · rw [if_neg (by omega), if_pos c]
    · rw [if_pos (by omega), if_neg c]
  rw [if_neg (show ¬ (4 ≤ a ∧ a < 22) by omega), if_neg (show ¬ (4 + strnlen m 4 17 ≤ a ∧ a < 22) by omega)]
  by_cases c3 : a < 40
  · rw [if_neg (by omega), if_neg (by omega), if_pos (show 22 ≤ a ∧ a < 40 by omega)]
    by_cases c : a < 22 + strnlen m 22 17
    · rw [if_neg (by omega), if_pos c]
    · rw [if_pos (by omega), if_neg c]
  rw [if_neg (show ¬ (22 ≤ a ∧ a < 40) by omega), if_neg (show ¬ (22 + strnlen m 22 17 ≤ a ∧ a < 40) by omega)]
  by_cases c4 : a < 58
  · rw [if_neg (by omega), if_pos (show 40 ≤ a ∧ a < 58 by omega)]
    by_cases c : a < 40 + strnlen m 40 17
    · rw [if_neg (by omega), if_pos c]
    · rw [if_pos (by omega), if_neg c]
  rw [if_neg (show ¬ (40 ≤ a ∧ a < 58) by omega), if_neg (show ¬ (40 + strnlen m 40 17 ≤ a ∧ a < 58) by omega)]
  by_cases c5 : 62 ≤ a ∧ a < 574
  · rw [if_pos c5]
    by_cases hd : m.read 0 = 0x10
    · rw [if_pos hd]
      by_cases c : a < 62 + strnlen m 62 511
      · rw [if_neg (by omega), if_pos ⟨hd, c⟩]
      · rw [if_pos (by omega), if_neg (by omega)]
    · rw [if_neg hd, if_pos (by omega), if_neg (fun h => hd h.1)]
  · rw [if_neg c5, if_neg (by split <;> omega)]

theorem read_canonFrame_type (m : Memory) : (canonFrame m).read 0 = m.read 0 := by simp [read_canonFrame]

theorem read_zeroFill (n : Nat) (m : Memory) (a : Nat) :
    (zeroFill n m).read a = if n ≤ a ∧ a < Config.frameSize then 0 else m.read a := by
  rw [zeroFill, read_zero]
  exact if_congr (by omega) rfl rfl

/-- Storing the integrity changes bytes 58 to 61 only, so the digest is the same after it. -/
theorem read_memWrite_integrity (m : Memory) (v : Word) (a : Nat) (h : a < 58 ∨ 61 < a) :
    (memWrite m integrityOff 4 v).read a = m.read a := by
  rw [read_memWrite, if_neg (by have := layout; omega)]

theorem digestEngine_memWrite_integrity (zs : Bool) (m : Memory) (v : Word) :
    digestEngine zs (memWrite m integrityOff 4 v) = digestEngine zs m :=
  digestEngine_congr zs _ _ fun a h => read_memWrite_integrity m v a (by omega)

theorem frameDigest_memWrite_integrity (zs : Bool) (m : Memory) (v : Word) :
    frameDigest zs (memWrite m integrityOff 4 v) = frameDigest zs m := by
  unfold frameDigest
  rw [digestEngine_memWrite_integrity]

theorem payloadLen_memWrite_integrity (m : Memory) (v : Word) :
    payloadLen (memWrite m integrityOff 4 v) = payloadLen m :=
  payloadLen_congr _ _ (read_memWrite_integrity m v typeOff (by decide))
    fun k _ => read_memWrite_integrity m v _ (by have := layout; omega)

/-! ### The canonical form of the buffer is kept -/

theorem wf_canonAddress (m : Memory) (base : Nat) (hm : m.wf = true) (h : base + Config.addrField ≤ Config.frameSize) :
    (canonAddress m base).wf = true := by
  have hl := layout
  have := strnlen_le m base Config.addrChars
  exact wf_zero _ _ _ hm (by omega)

theorem wf_canonPayload (m : Memory) (hm : m.wf = true) : (canonPayload m).wf = true := by
  have hl := layout
  have := strnlen_le m payloadOff Config.payloadChars
  unfold canonPayload
  split <;> exact wf_zero _ _ _ hm (by omega)

theorem wf_canonFrame (m : Memory) (hm : m.wf = true) : (canonFrame m).wf = true := by
  unfold canonFrame
  refine wf_canonPayload _ (wf_canonAddress _ _ (wf_canonAddress _ _ (wf_canonAddress _ _ (wf_zero _ _ _ hm ?_) ?_) ?_) ?_) <;>
    decide

theorem wf_zeroFill (n : Nat) (m : Memory) (hm : m.wf = true) : (zeroFill n m).wf = true := by
  by_cases h : n ≤ Config.frameSize
  · exact wf_zero _ _ _ hm (by omega)
  · have h0 : Config.frameSize - n = 0 := by omega
    rw [zeroFill, h0]
    exact wf_put _ _ _ hm (Or.inr rfl)

end Sys2Proof.Machine
end

