-- ==== Sys2Proof/Laws/State.lean ====
section
/-! SUPPORT. One lemma a field for each update of State, so that no proof unfolds a record update. -/

namespace Sys2Proof.Machine

@[simp] theorem raise_eng (s : State) (e : ErrorBit) : (s.raise e).eng = s.eng := by cases e <;> rfl
@[simp] theorem raise_calcReg (s : State) (e : ErrorBit) : (s.raise e).calcReg = s.calcReg := by cases e <;> rfl
@[simp] theorem raise_rxfcs (s : State) (e : ErrorBit) : (s.raise e).rxfcs = s.rxfcs := by cases e <;> rfl
@[simp] theorem raise_plen (s : State) (e : ErrorBit) : (s.raise e).plen = s.plen := by cases e <;> rfl
@[simp] theorem raise_short (s : State) (e : ErrorBit) : (s.raise e).short = s.short := by cases e <;> rfl
@[simp] theorem raise_long (s : State) (e : ErrorBit) : (s.raise e).long = s.long := by cases e <;> rfl
@[simp] theorem raise_result (s : State) (e : ErrorBit) : (s.raise e).result = s.result := by cases e <;> rfl
@[simp] theorem raise_errCmd (s : State) (e : ErrorBit) : (s.raise e).errCmd = (s.errCmd || e == .cmd) := by
  cases e <;> cases h : s.errCmd <;> simp [State.raise, h]
@[simp] theorem raise_errRange (s : State) (e : ErrorBit) : (s.raise e).errRange = (s.errRange || e == .range) := by
  cases e <;> cases h : s.errRange <;> simp [State.raise, h]
@[simp] theorem raise_errBusy (s : State) (e : ErrorBit) : (s.raise e).errBusy = (s.errBusy || e == .busy) := by
  cases e <;> cases h : s.errBusy <;> simp [State.raise, h]
@[simp] theorem raise_errBus (s : State) (e : ErrorBit) : (s.raise e).errBus = (s.errBus || e == .bus) := by
  cases e <;> cases h : s.errBus <;> simp [State.raise, h]
@[simp] theorem raise_pend (s : State) (e : ErrorBit) : (s.raise e).pend = s.pend := by cases e <;> rfl
@[simp] theorem raise_buf (s : State) (e : ErrorBit) : (s.raise e).buf = s.buf := by cases e <;> rfl
@[simp] theorem raise_agenda (s : State) (e : ErrorBit) : (s.raise e).agenda = s.agenda := by cases e <;> rfl
@[simp] theorem raise_resp (s : State) (e : ErrorBit) : (s.raise e).resp = s.resp := by cases e <;> rfl
@[simp] theorem raise_draws (s : State) (e : ErrorBit) : (s.raise e).draws = s.draws := by cases e <;> rfl

@[simp] theorem clearErrors_eng (s : State) (v : Word) : (s.clearErrors v).eng = s.eng := rfl
@[simp] theorem clearErrors_calcReg (s : State) (v : Word) : (s.clearErrors v).calcReg = s.calcReg := rfl
@[simp] theorem clearErrors_rxfcs (s : State) (v : Word) : (s.clearErrors v).rxfcs = s.rxfcs := rfl
@[simp] theorem clearErrors_plen (s : State) (v : Word) : (s.clearErrors v).plen = s.plen := rfl
@[simp] theorem clearErrors_short (s : State) (v : Word) : (s.clearErrors v).short = s.short := rfl
@[simp] theorem clearErrors_long (s : State) (v : Word) : (s.clearErrors v).long = s.long := rfl
@[simp] theorem clearErrors_result (s : State) (v : Word) : (s.clearErrors v).result = s.result := rfl
@[simp] theorem clearErrors_errCmd (s : State) (v : Word) : (s.clearErrors v).errCmd = (s.errCmd && !v.getLsbD 8) := rfl
@[simp] theorem clearErrors_errRange (s : State) (v : Word) : (s.clearErrors v).errRange = (s.errRange && !v.getLsbD 9) := rfl
@[simp] theorem clearErrors_errBusy (s : State) (v : Word) : (s.clearErrors v).errBusy = (s.errBusy && !v.getLsbD 10) := rfl
@[simp] theorem clearErrors_errBus (s : State) (v : Word) : (s.clearErrors v).errBus = (s.errBus && !v.getLsbD 11) := rfl
@[simp] theorem clearErrors_pend (s : State) (v : Word) : (s.clearErrors v).pend = s.pend := rfl
@[simp] theorem clearErrors_buf (s : State) (v : Word) : (s.clearErrors v).buf = s.buf := rfl
@[simp] theorem clearErrors_agenda (s : State) (v : Word) : (s.clearErrors v).agenda = s.agenda := rfl
@[simp] theorem clearErrors_resp (s : State) (v : Word) : (s.clearErrors v).resp = s.resp := rfl
@[simp] theorem clearErrors_draws (s : State) (v : Word) : (s.clearErrors v).draws = s.draws := rfl

@[simp] theorem complete_eng (s : State) : s.complete.eng = s.eng := rfl
@[simp] theorem complete_calcReg (s : State) : s.complete.calcReg = s.calcReg := rfl
@[simp] theorem complete_rxfcs (s : State) : s.complete.rxfcs = s.rxfcs := rfl
@[simp] theorem complete_plen (s : State) : s.complete.plen = s.plen := rfl
@[simp] theorem complete_short (s : State) : s.complete.short = s.short := rfl
@[simp] theorem complete_long (s : State) : s.complete.long = s.long := rfl
@[simp] theorem complete_result (s : State) : s.complete.result = s.result := rfl
@[simp] theorem complete_errCmd (s : State) : s.complete.errCmd = s.errCmd := rfl
@[simp] theorem complete_errRange (s : State) : s.complete.errRange = s.errRange := rfl
@[simp] theorem complete_errBusy (s : State) : s.complete.errBusy = s.errBusy := rfl
@[simp] theorem complete_errBus (s : State) : s.complete.errBus = s.errBus := rfl
@[simp] theorem complete_pend (s : State) : s.complete.pend = none := rfl
@[simp] theorem complete_buf (s : State) : s.complete.buf = s.buf := rfl
@[simp] theorem complete_agenda (s : State) : s.complete.agenda = s.agenda := rfl
@[simp] theorem complete_resp (s : State) : s.complete.resp = s.resp := rfl
@[simp] theorem complete_draws (s : State) : s.complete.draws = s.draws := rfl

@[simp] theorem respond_eng (s : State) (d : Option Word) (e : Bool) : (s.respond d e).eng = s.eng := rfl
@[simp] theorem respond_calcReg (s : State) (d : Option Word) (e : Bool) : (s.respond d e).calcReg = s.calcReg := rfl
@[simp] theorem respond_rxfcs (s : State) (d : Option Word) (e : Bool) : (s.respond d e).rxfcs = s.rxfcs := rfl
@[simp] theorem respond_plen (s : State) (d : Option Word) (e : Bool) : (s.respond d e).plen = s.plen := rfl
@[simp] theorem respond_short (s : State) (d : Option Word) (e : Bool) : (s.respond d e).short = s.short := rfl
@[simp] theorem respond_long (s : State) (d : Option Word) (e : Bool) : (s.respond d e).long = s.long := rfl
@[simp] theorem respond_result (s : State) (d : Option Word) (e : Bool) : (s.respond d e).result = s.result := rfl
@[simp] theorem respond_errCmd (s : State) (d : Option Word) (e : Bool) : (s.respond d e).errCmd = s.errCmd := rfl
@[simp] theorem respond_errRange (s : State) (d : Option Word) (e : Bool) : (s.respond d e).errRange = s.errRange := rfl
@[simp] theorem respond_errBusy (s : State) (d : Option Word) (e : Bool) : (s.respond d e).errBusy = s.errBusy := rfl
@[simp] theorem respond_errBus (s : State) (d : Option Word) (e : Bool) : (s.respond d e).errBus = s.errBus := rfl
@[simp] theorem respond_pend (s : State) (d : Option Word) (e : Bool) : (s.respond d e).pend = s.pend := rfl
@[simp] theorem respond_buf (s : State) (d : Option Word) (e : Bool) : (s.respond d e).buf = s.buf := rfl
@[simp] theorem respond_agenda (s : State) (d : Option Word) (e : Bool) : (s.respond d e).agenda = s.agenda := rfl
@[simp] theorem respond_resp (s : State) (d : Option Word) (e : Bool) : (s.respond d e).resp = some ⟨d, e⟩ := rfl
@[simp] theorem respond_draws (s : State) (d : Option Word) (e : Bool) : (s.respond d e).draws = s.draws := rfl

@[simp] theorem takeDigest_eng (zs : Bool) (s : State) : (s.takeDigest zs).eng = digestEngine zs s.buf := rfl
@[simp] theorem takeDigest_calcReg (zs : Bool) (s : State) : (s.takeDigest zs).calcReg = frameDigest zs s.buf := rfl
@[simp] theorem takeDigest_rxfcs (zs : Bool) (s : State) : (s.takeDigest zs).rxfcs = s.rxfcs := rfl
@[simp] theorem takeDigest_plen (zs : Bool) (s : State) : (s.takeDigest zs).plen = BitVec.ofNat 10 (payloadLen s.buf) := rfl
@[simp] theorem takeDigest_short (zs : Bool) (s : State) : (s.takeDigest zs).short = s.short := rfl
@[simp] theorem takeDigest_long (zs : Bool) (s : State) : (s.takeDigest zs).long = s.long := rfl
@[simp] theorem takeDigest_result (zs : Bool) (s : State) : (s.takeDigest zs).result = s.result := rfl
@[simp] theorem takeDigest_errCmd (zs : Bool) (s : State) : (s.takeDigest zs).errCmd = s.errCmd := rfl
@[simp] theorem takeDigest_errRange (zs : Bool) (s : State) : (s.takeDigest zs).errRange = s.errRange := rfl
@[simp] theorem takeDigest_errBusy (zs : Bool) (s : State) : (s.takeDigest zs).errBusy = s.errBusy := rfl
@[simp] theorem takeDigest_errBus (zs : Bool) (s : State) : (s.takeDigest zs).errBus = s.errBus := rfl
@[simp] theorem takeDigest_pend (zs : Bool) (s : State) : (s.takeDigest zs).pend = s.pend := rfl
@[simp] theorem takeDigest_buf (zs : Bool) (s : State) : (s.takeDigest zs).buf = s.buf := rfl
@[simp] theorem takeDigest_agenda (zs : Bool) (s : State) : (s.takeDigest zs).agenda = s.agenda := rfl
@[simp] theorem takeDigest_resp (zs : Bool) (s : State) : (s.takeDigest zs).resp = s.resp := rfl
@[simp] theorem takeDigest_draws (zs : Bool) (s : State) : (s.takeDigest zs).draws = s.draws := rfl

@[simp] theorem seal_eng (zs : Bool) (s : State) : (s.seal zs).eng = digestEngine zs s.buf := rfl
@[simp] theorem seal_calcReg (zs : Bool) (s : State) : (s.seal zs).calcReg = frameDigest zs s.buf := rfl
@[simp] theorem seal_rxfcs (zs : Bool) (s : State) : (s.seal zs).rxfcs = s.rxfcs := rfl
@[simp] theorem seal_plen (zs : Bool) (s : State) : (s.seal zs).plen = BitVec.ofNat 10 (payloadLen s.buf) := rfl
@[simp] theorem seal_short (zs : Bool) (s : State) : (s.seal zs).short = s.short := rfl
@[simp] theorem seal_long (zs : Bool) (s : State) : (s.seal zs).long = s.long := rfl
@[simp] theorem seal_result (zs : Bool) (s : State) : (s.seal zs).result = s.result := rfl
@[simp] theorem seal_errCmd (zs : Bool) (s : State) : (s.seal zs).errCmd = s.errCmd := rfl
@[simp] theorem seal_errRange (zs : Bool) (s : State) : (s.seal zs).errRange = s.errRange := rfl
@[simp] theorem seal_errBusy (zs : Bool) (s : State) : (s.seal zs).errBusy = s.errBusy := rfl
@[simp] theorem seal_errBus (zs : Bool) (s : State) : (s.seal zs).errBus = s.errBus := rfl
@[simp] theorem seal_pend (zs : Bool) (s : State) : (s.seal zs).pend = s.pend := rfl
@[simp] theorem seal_buf (zs : Bool) (s : State) : (s.seal zs).buf = memWrite s.buf integrityOff 4 (frameDigest zs s.buf) := rfl
@[simp] theorem seal_agenda (zs : Bool) (s : State) : (s.seal zs).agenda = s.agenda := rfl
@[simp] theorem seal_resp (zs : Bool) (s : State) : (s.seal zs).resp = s.resp := rfl
@[simp] theorem seal_draws (zs : Bool) (s : State) : (s.seal zs).draws = s.draws := rfl

@[simp] theorem encodeFrame_eng (zs : Bool) (s : State) :
    (s.encodeFrame zs).eng = digestEngine zs (canonFrame s.buf) := by simp only [State.encodeFrame, seal_eng]
@[simp] theorem encodeFrame_calcReg (zs : Bool) (s : State) :
    (s.encodeFrame zs).calcReg = frameDigest zs (canonFrame s.buf) := by simp only [State.encodeFrame, seal_calcReg]
@[simp] theorem encodeFrame_rxfcs (zs : Bool) (s : State) :
    (s.encodeFrame zs).rxfcs = s.rxfcs := by simp only [State.encodeFrame, seal_rxfcs]
@[simp] theorem encodeFrame_plen (zs : Bool) (s : State) :
    (s.encodeFrame zs).plen = BitVec.ofNat 10 (payloadLen (canonFrame s.buf)) := by simp only [State.encodeFrame, seal_plen]
@[simp] theorem encodeFrame_short (zs : Bool) (s : State) :
    (s.encodeFrame zs).short = s.short := by simp only [State.encodeFrame, seal_short]
@[simp] theorem encodeFrame_long (zs : Bool) (s : State) :
    (s.encodeFrame zs).long = s.long := by simp only [State.encodeFrame, seal_long]
@[simp] theorem encodeFrame_result (zs : Bool) (s : State) :
    (s.encodeFrame zs).result = s.result := by simp only [State.encodeFrame, seal_result]
@[simp] theorem encodeFrame_errCmd (zs : Bool) (s : State) :
    (s.encodeFrame zs).errCmd = s.errCmd := by simp only [State.encodeFrame, seal_errCmd]
@[simp] theorem encodeFrame_errRange (zs : Bool) (s : State) :
    (s.encodeFrame zs).errRange = s.errRange := by simp only [State.encodeFrame, seal_errRange]
@[simp] theorem encodeFrame_errBusy (zs : Bool) (s : State) :
    (s.encodeFrame zs).errBusy = s.errBusy := by simp only [State.encodeFrame, seal_errBusy]
@[simp] theorem encodeFrame_errBus (zs : Bool) (s : State) :
    (s.encodeFrame zs).errBus = s.errBus := by simp only [State.encodeFrame, seal_errBus]
@[simp] theorem encodeFrame_pend (zs : Bool) (s : State) :
    (s.encodeFrame zs).pend = s.pend := by simp only [State.encodeFrame, seal_pend]
@[simp] theorem encodeFrame_buf (zs : Bool) (s : State) :
    (s.encodeFrame zs).buf = memWrite (canonFrame s.buf) integrityOff 4 (frameDigest zs (canonFrame s.buf)) := by simp only [State.encodeFrame, seal_buf]
@[simp] theorem encodeFrame_agenda (zs : Bool) (s : State) :
    (s.encodeFrame zs).agenda = s.agenda := by simp only [State.encodeFrame, seal_agenda]
@[simp] theorem encodeFrame_resp (zs : Bool) (s : State) :
    (s.encodeFrame zs).resp = s.resp := by simp only [State.encodeFrame, seal_resp]
@[simp] theorem encodeFrame_draws (zs : Bool) (s : State) :
    (s.encodeFrame zs).draws = s.draws := by simp only [State.encodeFrame, seal_draws]

@[simp] theorem softReset_eng (s : State) : s.softReset.eng = State.reset.eng := rfl
@[simp] theorem softReset_calcReg (s : State) : s.softReset.calcReg = State.reset.calcReg := rfl
@[simp] theorem softReset_rxfcs (s : State) : s.softReset.rxfcs = State.reset.rxfcs := rfl
@[simp] theorem softReset_plen (s : State) : s.softReset.plen = State.reset.plen := rfl
@[simp] theorem softReset_short (s : State) : s.softReset.short = State.reset.short := rfl
@[simp] theorem softReset_long (s : State) : s.softReset.long = State.reset.long := rfl
@[simp] theorem softReset_result (s : State) : s.softReset.result = State.reset.result := rfl
@[simp] theorem softReset_errCmd (s : State) : s.softReset.errCmd = State.reset.errCmd := rfl
@[simp] theorem softReset_errRange (s : State) : s.softReset.errRange = State.reset.errRange := rfl
@[simp] theorem softReset_errBusy (s : State) : s.softReset.errBusy = State.reset.errBusy := rfl
@[simp] theorem softReset_errBus (s : State) : s.softReset.errBus = State.reset.errBus := rfl
@[simp] theorem softReset_pend (s : State) : s.softReset.pend = State.reset.pend := rfl
@[simp] theorem softReset_buf (s : State) : s.softReset.buf = bufferAfterReset s := rfl
@[simp] theorem softReset_agenda (s : State) : s.softReset.agenda = s.agenda := rfl
@[simp] theorem softReset_resp (s : State) : s.softReset.resp = s.resp := rfl
@[simp] theorem softReset_draws (s : State) : s.softReset.draws = s.draws + 1 := rfl

@[simp] theorem lessErrors_eng (s : State) : s.lessErrors.eng = s.eng := rfl
@[simp] theorem lessErrors_calcReg (s : State) : s.lessErrors.calcReg = s.calcReg := rfl
@[simp] theorem lessErrors_rxfcs (s : State) : s.lessErrors.rxfcs = s.rxfcs := rfl
@[simp] theorem lessErrors_plen (s : State) : s.lessErrors.plen = s.plen := rfl
@[simp] theorem lessErrors_short (s : State) : s.lessErrors.short = s.short := rfl
@[simp] theorem lessErrors_long (s : State) : s.lessErrors.long = s.long := rfl
@[simp] theorem lessErrors_result (s : State) : s.lessErrors.result = s.result := rfl
@[simp] theorem lessErrors_errCmd (s : State) : s.lessErrors.errCmd = false := rfl
@[simp] theorem lessErrors_errRange (s : State) : s.lessErrors.errRange = false := rfl
@[simp] theorem lessErrors_errBusy (s : State) : s.lessErrors.errBusy = false := rfl
@[simp] theorem lessErrors_errBus (s : State) : s.lessErrors.errBus = false := rfl
@[simp] theorem lessErrors_pend (s : State) : s.lessErrors.pend = s.pend := rfl
@[simp] theorem lessErrors_buf (s : State) : s.lessErrors.buf = s.buf := rfl
@[simp] theorem lessErrors_agenda (s : State) : s.lessErrors.agenda = s.agenda := rfl
@[simp] theorem lessErrors_resp (s : State) : s.lessErrors.resp = none := rfl
@[simp] theorem lessErrors_draws (s : State) : s.lessErrors.draws = s.draws := rfl

/-- `STATUS.BUSY` is whether `PEND` holds a word. -/
@[simp] theorem busy_eq_false_iff (s : State) : s.busy = false ↔ s.pend = none := by
  simp [State.busy, Option.isSome_eq_false_iff]

theorem busy_eq_true_iff (s : State) : s.busy = true ↔ ∃ w, s.pend = some w := by
  simp [State.busy, Option.isSome_iff_exists]

@[simp] theorem complete_busy (s : State) : s.complete.busy = false := rfl

@[simp] theorem raise_busy_flag (s : State) (e : ErrorBit) : (s.raise e).busy = s.busy := by cases e <;> rfl

@[simp] theorem respond_busy (s : State) (d : Option Word) (e : Bool) : (s.respond d e).busy = s.busy := rfl

@[simp] theorem clearErrors_busy (s : State) (v : Word) : (s.clearErrors v).busy = s.busy := rfl

@[simp] theorem softReset_busy (s : State) : s.softReset.busy = false := rfl

end Sys2Proof.Machine
end

