-- ==== Sys2Proof/Laws/Exec.lean ====
section
/-! SUPPORT. What performing a command can do, said once: it answers a next state, completes, and leaves the model's own fields
and the error bits alone; it keeps the buffer's canonical form and `PLEN`'s bound. -/

namespace Sys2Proof.Machine

/-- The state a command leaves. -/
def performed : Instr → State → State
  | .nop, s => s
  | .ckInit, s => { s with eng := Engine.init }
  | .ckFeed byte, s => { s with eng := s.eng.offer Config.zeroStop byte }
  | .ckSpan start len, s =>
    if start.toNat + len.toNat ≤ Config.frameSize then
      { s with eng := s.eng.feed Config.zeroStop (s.buf.bytes start.toNat len.toNat) }
    else s.raise .range
  | .frClear, s => { s with buf := s.buf.zero 0 Config.frameSize }
  | .frEncode, s => s.encodeFrame Config.zeroStop
  | .frSeal, s => s.seal Config.zeroStop
  | .frDecode rxlen, s => s.decodeFrame Config.zeroStop rxlen.toNat

/-- Every command completes: `exec` answers the next state that `performed` names, with no command pending. -/
theorem exec_eq_performed (i : Instr) (s : State) : exec i s = .next (performed i s).complete := by
  cases i with
  | ckSpan start len =>
    simp only [exec, execCkSpan, performed]
    split <;> rfl
  | nop => rfl
  | ckInit => rfl
  | ckFeed byte => rfl
  | frClear => rfl
  | frEncode => rfl
  | frSeal => rfl
  | frDecode rxlen => rfl

theorem exec_next_iff (i : Instr) (s t : State) : exec i s = .next t ↔ t = (performed i s).complete := by
  rw [exec_eq_performed]
  constructor
  · intro h; injection h with h; exact h.symm
  · rintro rfl; rfl

/-- `FR.DECODE`'s two checks: an invalid type, or the digest and the comparison. -/
theorem validate_cases (zs : Bool) (s : State) :
    (okCode (frameTypeOf (s.buf.read typeOff)) = none ∧ s.validate zs = { s with result := .errType }) ∨
    (∃ ok, okCode (frameTypeOf (s.buf.read typeOff)) = some ok ∧
      s.validate zs = { s.takeDigest zs with
        rxfcs := memRead s.buf integrityOff 4
        result := if frameDigest zs s.buf = memRead s.buf integrityOff 4 then ok else .errFcs }) := by
  unfold State.validate
  cases h : okCode (frameTypeOf (s.buf.read typeOff)) with
  | none => exact Or.inl ⟨rfl, rfl⟩
  | some ok => exact Or.inr ⟨ok, rfl, rfl⟩

theorem okCode_ne (t : FrameType) (c : ResultCode) (h : okCode t = some c) : c ≠ .none ∧ c ≠ .empty := by
  cases t <;> simp [okCode] at h <;> subst h <;> decide

/-- The frame of every command: the model's own fields and the four error bits; `ERR_RANGE` alone may be set, by a `CK.SPAN`
that no issue accepts. -/
theorem performed_frame (i : Instr) (s : State) :
    (performed i s).agenda = s.agenda ∧ (performed i s).resp = s.resp ∧ (performed i s).draws = s.draws ∧
    (performed i s).errCmd = s.errCmd ∧ (performed i s).errBusy = s.errBusy ∧ (performed i s).errBus = s.errBus ∧
    (i.wf = true → (performed i s).errRange = s.errRange) := by
  cases i with
  | ckSpan start len =>
    simp only [performed, Instr.wf, decide_eq_true_eq]
    split
    · exact ⟨rfl, rfl, rfl, rfl, rfl, rfl, fun _ => rfl⟩
    · next h => exact ⟨rfl, rfl, rfl, rfl, rfl, rfl, fun hw => absurd hw h⟩
  | frDecode rxlen =>
    simp only [performed, State.decodeFrame]
    split
    · exact ⟨rfl, rfl, rfl, rfl, rfl, rfl, fun _ => rfl⟩
    · rcases validate_cases Config.zeroStop _ with ⟨-, h⟩ | ⟨ok, -, h⟩ <;> rw [h] <;>
        exact ⟨rfl, rfl, rfl, rfl, rfl, rfl, fun _ => rfl⟩
  | nop => exact ⟨rfl, rfl, rfl, rfl, rfl, rfl, fun _ => rfl⟩
  | ckInit => exact ⟨rfl, rfl, rfl, rfl, rfl, rfl, fun _ => rfl⟩
  | ckFeed byte => exact ⟨rfl, rfl, rfl, rfl, rfl, rfl, fun _ => rfl⟩
  | frClear => exact ⟨rfl, rfl, rfl, rfl, rfl, rfl, fun _ => rfl⟩
  | frEncode => simp [performed]
  | frSeal => simp [performed]

/-- Every command keeps the buffer's canonical form. -/
theorem performed_wf (i : Instr) (s : State) (h : s.buf.wf = true) : (performed i s).buf.wf = true := by
  cases i with
  | ckSpan start len =>
    simp only [performed]
    split <;> exact h
  | frDecode rxlen =>
    simp only [performed, State.decodeFrame]
    split
    · exact h
    · have hz := wf_zeroFill rxlen.toNat s.buf h
      rcases validate_cases Config.zeroStop _ with ⟨-, h'⟩ | ⟨ok, -, h'⟩ <;> rw [h'] <;> exact hz
  | nop => exact h
  | ckInit => exact h
  | ckFeed byte => exact h
  | frClear => exact wf_zero s.buf 0 Config.frameSize h (by decide)
  | frEncode => simpa [performed] using wf_memWrite _ _ _ _ (wf_canonFrame _ h)
  | frSeal => simpa [performed] using wf_memWrite _ _ _ _ h

/-- A payload length fits `PLEN`. -/
theorem plen_ofNat (m : Memory) : (BitVec.ofNat 10 (payloadLen m)).toNat = payloadLen m := by
  have h := payloadLen_le m
  have hl := layout
  rw [BitVec.toNat_ofNat]
  exact Nat.mod_eq_of_lt (by omega)

/-- Every command keeps `PLEN` at most 512. -/
theorem performed_plen (i : Instr) (s : State) (h : s.plen.toNat ≤ Config.payloadCap) :
    (performed i s).plen.toNat ≤ Config.payloadCap := by
  have key : ∀ m : Memory, (BitVec.ofNat 10 (payloadLen m)).toNat ≤ Config.payloadCap := fun m => by
    rw [plen_ofNat]; exact payloadLen_le m
  cases i with
  | ckSpan start len =>
    simp only [performed]
    split <;> exact h
  | frDecode rxlen =>
    simp only [performed, State.decodeFrame]
    split
    · exact h
    · rcases validate_cases Config.zeroStop _ with ⟨-, h'⟩ | ⟨ok, -, h'⟩ <;> rw [h']
      · exact h
      · exact key _
  | nop => exact h
  | ckInit => exact h
  | ckFeed byte => exact h
  | frClear => exact h
  | frEncode => simpa only [performed, encodeFrame_plen] using key _
  | frSeal => simpa only [performed, seal_plen] using key _

/-- Equal field strings: equal lengths and equal characters. -/
theorem fieldString_congr (m m' : Memory) (off max : Nat) (h : fieldString m off max = fieldString m' off max) :
    strnlen m off max = strnlen m' off max ∧ ∀ i < strnlen m off max, m.read (off + i) = m'.read (off + i) := by
  have hl : strnlen m off max = strnlen m' off max := congrArg List.length h
  refine ⟨hl, fun i hi => ?_⟩
  have g : ∀ m : Memory, i < strnlen m off max → (fieldString m off max)[i]? = some (m.read (off + i)) := by
    intro m hi
    have hle := strnlen_le m off max
    have hp : fieldString m off max <+: m.bytes off max := List.takeWhile_prefix _
    obtain ⟨r, hr⟩ := hp
    rw [← bytes_getElem? m off max i (by omega), ← hr]
    exact (List.getElem?_append_left (l₂ := r) (show i < (fieldString m off max).length from hi)).symm
  have h1 := g m hi
  rw [h, g m' (hl ▸ hi)] at h1
  injection h1 with h1
  exact h1.symm

end Sys2Proof.Machine
end

