-- ==== Sys2Proof/Laws/Bus.lean ====
section
/-! SUPPORT. The bus side: where each offset leads, what an access can do, what an abort leaves, and the turns. -/

namespace Sys2Proof.Machine

/-! ### Offsets -/

theorem inFrameWindow_iff (a : Offset) : inFrameWindow a = true ↔ 0x400 ≤ a.toNat ∧ a.toNat < 0x800 := by
  simp [inFrameWindow]

theorem targetAt_frame (a : Offset) (h : 0x400 ≤ a.toNat) (h' : a.toNat < 0x800) :
    targetAt a = .frame (a.toNat - 0x400) := by
  rw [targetAt, if_pos ((inFrameWindow_iff a).mpr ⟨h, h'⟩)]

theorem targetAt_outside (a : Offset) (h : a.toNat < 0x400 ∨ 0x800 ≤ a.toNat) :
    targetAt a = match regAt a.toNat with
      | some r => .reg r
      | none => .reserved := by
  unfold targetAt
  exact if_neg (by rw [inFrameWindow_iff]; omega)

theorem targetAt_reserved (a : Offset) (h : (0x02C ≤ a.toNat ∧ a.toNat < 0x400) ∨ 0x800 ≤ a.toNat) :
    targetAt a = .reserved := by
  rw [targetAt_outside a (by omega)]
  have : regAt a.toNat = none := by
    unfold regAt
    repeat rw [if_neg (by omega)]
  rw [this]

/-- A register's offset (10_state.md R20). -/
def regOffset : Reg → Nat
  | .id => 0x000
  | .ctrl => 0x004
  | .status => 0x008
  | .cmd => 0x00C
  | .acc => 0x010
  | .digest => 0x014
  | .cnt => 0x018
  | .calcReg => 0x01C
  | .rxfcs => 0x020
  | .plen => 0x024
  | .param => 0x028

theorem regAt_eq (a : Nat) (r : Reg) (h : regAt a = some r) : a = regOffset r := by
  unfold regAt at h
  split_ifs at h <;> injection h with h <;> subst h <;> assumption

/-- Only a register's own offset reaches it. -/
theorem targetAt_reg_eq (a : Offset) (r : Reg) (h : targetAt a = .reg r) : a.toNat = regOffset r := by
  unfold targetAt at h
  split at h
  · cases h
  · cases hr : regAt a.toNat with
    | none => rw [hr] at h; cases h
    | some r' =>
      rw [hr] at h
      injection h with h
      exact h ▸ regAt_eq _ _ hr

/-- A frame target is an offset of the frame window. -/
theorem targetAt_frame_eq (a : Offset) (k : Nat) (h : targetAt a = .frame k) :
    0x400 ≤ a.toNat ∧ a.toNat < 0x800 ∧ k = a.toNat - 0x400 := by
  unfold targetAt at h
  split at h
  · next hf =>
    rw [inFrameWindow_iff] at hf
    injection h with h
    exact ⟨hf.1, hf.2, h.symm⟩
  · cases hr : regAt a.toNat <;> rw [hr] at h <;> cases h

/-! The register offsets (10_state.md R20). -/

@[simp] theorem targetAt_id : targetAt 0x000#12 = .reg .id := by decide
@[simp] theorem targetAt_ctrl : targetAt 0x004#12 = .reg .ctrl := by decide
@[simp] theorem targetAt_status : targetAt 0x008#12 = .reg .status := by decide
@[simp] theorem targetAt_cmd : targetAt 0x00C#12 = .reg .cmd := by decide
@[simp] theorem targetAt_acc : targetAt 0x010#12 = .reg .acc := by decide
@[simp] theorem targetAt_digest : targetAt 0x014#12 = .reg .digest := by decide
@[simp] theorem targetAt_cnt : targetAt 0x018#12 = .reg .cnt := by decide
@[simp] theorem targetAt_calcReg : targetAt 0x01C#12 = .reg .calcReg := by decide
@[simp] theorem targetAt_rxfcs : targetAt 0x020#12 = .reg .rxfcs := by decide
@[simp] theorem targetAt_plen : targetAt 0x024#12 = .reg .plen := by decide
@[simp] theorem targetAt_param : targetAt 0x028#12 = .reg .param := by decide

theorem legal_frame_size (off : Offset) (n : Nat) (op : BusOp) (h : Access.legal ⟨off, n, op⟩ = true) :
    n = 1 ∨ n = 2 ∨ n = 4 := by
  unfold Access.legal at h
  split at h <;> simp at h <;> omega

/-- Outside the frame window only 32-bit accesses at multiples of 4 are legal (20_memory.md R64). -/
theorem legal_outside (off : Offset) (n : Nat) (op : BusOp) (h : off.toNat < 0x400 ∨ 0x800 ≤ off.toNat) :
    Access.legal ⟨off, n, op⟩ = (n == 4 && off.toNat % 4 == 0) := by
  rw [Access.legal, if_neg (by rw [inFrameWindow_iff]; dsimp only; omega)]

@[simp] theorem cmdWrite_legal (w : Word) : (cmdWrite w).legal = true := by
  rw [cmdWrite, legal_outside _ _ _ (by decide)]; decide

@[simp] theorem ctrlWrite_legal (w : Word) : (ctrlWrite w).legal = true := by
  rw [ctrlWrite, legal_outside _ _ _ (by decide)]; decide

@[simp] theorem statusWrite_legal (w : Word) : (statusWrite w).legal = true := by
  rw [statusWrite, legal_outside _ _ _ (by decide)]; decide

theorem busAccess_legal (a : Access) (s : State) (h : a.legal = true) : busAccess a s = legalAccess a s := by
  rw [busAccess, if_pos h]

theorem busAccess_illegal (a : Access) (s : State) (h : a.legal = false) : busAccess a s = illegalAccess a s := by
  rw [busAccess, if_neg (by simp [h])]

/-- A legal 32-bit read outside the frame window. -/
theorem busAccess_read (s : State) (off : Offset) (h : off.toNat < 0x400 ∨ 0x800 ≤ off.toNat) (h4 : off.toNat % 4 = 0) :
    busAccess ⟨off, 4, .read⟩ s
      = { s with resp := some ⟨some (readData s 4 (targetAt off)), false⟩, draws := s.draws + 1 } := by
  rw [busAccess_legal _ _ (by rw [legal_outside _ _ _ h]; simp [h4])]
  rfl

/-- A legal 32-bit write outside the frame window. -/
theorem busAccess_write (s : State) (off : Offset) (v : Word) (h : off.toNat < 0x400 ∨ 0x800 ≤ off.toNat)
    (h4 : off.toNat % 4 = 0) :
    busAccess ⟨off, 4, .write v⟩ s = (performWrite s 4 v (targetAt off)).respond none false := by
  rw [busAccess_legal _ _ (by rw [legal_outside _ _ _ h]; simp [h4])]
  rfl

theorem busAccess_cmdWrite (s : State) (w : Word) : busAccess (cmdWrite w) s = (issue w s).respond none false :=
  busAccess_write s 0x00C w (by decide) (by decide)

theorem busAccess_ctrlWrite (s : State) (v : Word) :
    busAccess (ctrlWrite v) s = (if v.getLsbD 0 then s.softReset else s).respond none false :=
  busAccess_write s 0x004 v (by decide) (by decide)

theorem busAccess_statusWrite (s : State) (v : Word) :
    busAccess (statusWrite v) s = (s.clearErrors v).respond none false :=
  busAccess_write s 0x008 v (by decide) (by decide)

/-! ### Reads of the frame window while a command is pending -/

/-- Bytes of bitwise operations. -/
theorem extractByte_ext (v : Word) (k : Nat) (b : Byte) (h : ∀ i < 8, v.getLsbD (8 * k + i) = b.getLsbD i) :
    v.extractLsb' (8 * k) 8 = b := by
  apply BitVec.eq_of_getLsbD_eq
  intro i hi
  rw [BitVec.getLsbD_extractLsb', h i hi]
  simp [hi]

/-- A byte read while busy: a byte of the buffer is the draw's, a byte of the tail is 0. -/
theorem readData_frame_busy (s : State) (n k i : Nat) (hb : s.busy = true) (hi : i < n) (hi4 : i < 4) :
    (readData s n (.frame k)).extractLsb' (8 * i) 8
      = if k + i < Config.frameSize then (Config.busyRead s.draws).extractLsb' (8 * i) 8 else 0 := by
  have hm : ∀ j < 8, (unspecifiedBits n (.frame k)).getLsbD (8 * i + j) = decide (k + i < Config.frameSize) := by
    intro j hj
    have h := congrArg (fun b => b.getLsbD j)
      (leValue_byte (fun i => if k + i < Config.frameSize then 0xFF else 0) n i hi hi4)
    simp only [BitVec.getLsbD_extractLsb', hj, decide_true, Bool.true_and] at h
    rw [unspecifiedBits, h]
    by_cases hk : k + i < Config.frameSize
    · simp only [if_pos hk, decide_eq_true hk]
      interval_cases j <;> rfl
    · simp only [if_neg hk, decide_eq_false hk]
      exact BitVec.getLsbD_zero
  have hv := fun j => congrArg (fun b => b.getLsbD j) (memRead_byte s.buf k n i hi hi4)
  apply extractByte_ext
  intro j hj
  have hv := hv j
  simp only [BitVec.getLsbD_extractLsb', hj, decide_true, Bool.true_and] at hv
  simp only [readData, hb, if_true, readValue, BitVec.getLsbD_or, BitVec.getLsbD_and, BitVec.getLsbD_not, hm j hj, hv, windowByte,
    show 8 * i + j < 32 by omega, decide_true, Bool.true_and]
  by_cases hk : k + i < Config.frameSize
  · simp only [if_pos hk, decide_eq_true hk, Bool.not_true, Bool.and_false, Bool.and_true, Bool.false_or,
      BitVec.getLsbD_extractLsb', hj, decide_true, Bool.true_and]
  · simp only [if_neg hk, decide_eq_false hk, Bool.and_false, Bool.or_false, Bool.not_false, Bool.and_true]

/-- The data bits beyond the bytes read are zero, busy or not. -/
theorem readData_frame_high (s : State) (n k i : Nat) (hi : 8 * n ≤ i) : (readData s n (.frame k)).getLsbD i = false := by
  have h := memRead_high s.buf k n i hi
  have h' := leValue_high (fun i => if k + i < Config.frameSize then 0xFF else 0) n i hi
  unfold readData
  split
  · simp only [readValue, unspecifiedBits, BitVec.getLsbD_or, BitVec.getLsbD_and, h, h', Bool.false_and, Bool.and_false,
      Bool.or_false]
  · exact h

/-! ### What an access can do -/

/-- An access is one of: an illegal access, a read, a write the block performs. -/
theorem busAccess_cases (a : Access) (s : State) :
    (a.legal = false ∧ ∃ d, busAccess a s = (s.raise .bus).respond d true) ∨
    (a.legal = true ∧ a.op = .read ∧
      busAccess a s
        = State.respond { s with draws := s.draws + 1 } (some (readData s a.size (targetAt a.offset))) false) ∨
    (a.legal = true ∧ ∃ v, a.op = .write v ∧
      busAccess a s = (performWrite s a.size v (targetAt a.offset)).respond none false) := by
  cases hl : a.legal with
  | false =>
    refine Or.inl ⟨rfl, ?_⟩
    rw [busAccess_illegal a s hl, illegalAccess]
    cases a.op <;> exact ⟨_, rfl⟩
  | true =>
    refine Or.inr ?_
    rw [busAccess_legal a s hl, legalAccess]
    cases h : a.op with
    | read => exact Or.inl ⟨rfl, rfl, rfl⟩
    | write v => exact Or.inr ⟨rfl, v, rfl, rfl⟩

/-- A performed write is one of: an error raised, a frame-window write, a command accepted, a soft reset, errors cleared,
nothing. -/
theorem performWrite_cases (s : State) (n : Nat) (v : Word) (t : Target) :
    (∃ e, performWrite s n v t = s.raise e) ∨
    (s.pend = none ∧ ∃ k, t = .frame k ∧ performWrite s n v t = { s with buf := memWrite s.buf k n v }) ∨
    (s.pend = none ∧ t = .reg .cmd ∧ (∃ i, decode v = .ok i ∧ i.wf = true) ∧
      performWrite s n v t = { s with pend := some v }) ∨
    (t = .reg .ctrl ∧ v.getLsbD 0 = true ∧ performWrite s n v t = s.softReset) ∨
    (t = .reg .status ∧ performWrite s n v t = s.clearErrors v) ∨
    performWrite s n v t = s := by
  cases t with
  | reserved => simp [performWrite]
  | frame k =>
    simp only [performWrite]
    cases hb : s.busy with
    | true => exact Or.inl ⟨.busy, rfl⟩
    | false => exact Or.inr (Or.inl ⟨by simpa using hb, k, rfl, rfl⟩)
  | reg r =>
    cases r with
    | cmd =>
      simp only [performWrite, issue]
      cases hb : s.busy with
      | true => exact Or.inl ⟨.busy, rfl⟩
      | false =>
        cases hd : decode v with
        | error e => exact Or.inl ⟨.cmd, rfl⟩
        | ok i =>
          cases hw : i.wf with
          | false => exact Or.inl ⟨.range, by simp [hw]⟩
          | true =>
            exact Or.inr (Or.inr (Or.inl ⟨by simpa using hb, trivial, ⟨i, rfl, hw⟩, by simp [hw]⟩))
    | ctrl =>
      simp only [performWrite]
      cases hv : v.getLsbD 0 with
      | true => exact Or.inr (Or.inr (Or.inr (Or.inl ⟨trivial, rfl, by simp⟩)))
      | false => simp
    | status => exact Or.inr (Or.inr (Or.inr (Or.inr (Or.inl ⟨rfl, rfl⟩))))
    | id => simp [performWrite]
    | acc => simp [performWrite]
    | digest => simp [performWrite]
    | cnt => simp [performWrite]
    | calcReg => simp [performWrite]
    | rxfcs => simp [performWrite]
    | plen => simp [performWrite]
    | param => simp [performWrite]

/-- No access touches the turns to come. -/
theorem busAccess_agenda (a : Access) (s : State) : (busAccess a s).agenda = s.agenda := by
  rcases busAccess_cases a s with ⟨-, d, h⟩ | ⟨-, -, h⟩ | ⟨-, v, -, h⟩ <;> rw [h]
  · simp
  · rfl
  · rw [respond_agenda]
    rcases performWrite_cases s a.size v (targetAt a.offset) with
      ⟨e, h⟩ | ⟨-, k, -, h⟩ | ⟨-, -, -, h⟩ | ⟨-, -, h⟩ | ⟨-, h⟩ | h <;> rw [h] <;> simp

/-! ### Aborts -/

theorem bufferAfter_ok (s : State) (w : Word) (i : Instr) (h : decode w = .ok i) :
    bufferAfter s w = (performed i s).buf := by
  simp only [bufferAfter, h, exec_eq_performed, complete_buf]

theorem wf_bufferAfterReset (s : State) (h : s.buf.wf = true) : (bufferAfterReset s).wf = true := by
  unfold bufferAfterReset
  cases s.pend with
  | none => exact h
  | some w => exact wf_blend _ _ _

/-- Every access keeps the buffer's canonical form. -/
theorem busAccess_wf (a : Access) (s : State) (hm : s.buf.wf = true) : (busAccess a s).buf.wf = true := by
  rcases busAccess_cases a s with ⟨-, d, h⟩ | ⟨-, -, h⟩ | ⟨-, v, -, h⟩ <;> rw [h]
  · simpa using hm
  · exact hm
  · rw [respond_buf]
    rcases performWrite_cases s a.size v (targetAt a.offset) with
      ⟨e, h⟩ | ⟨-, k, -, h⟩ | ⟨-, -, -, h⟩ | ⟨-, -, h⟩ | ⟨-, h⟩ | h <;> rw [h]
    · simpa using hm
    · exact wf_memWrite _ _ _ _ hm
    · exact hm
    · exact wf_bufferAfterReset s hm
    · exact hm
    · exact hm

/-! ### Turns -/

/-- What a step is: the engine with nothing to do, the engine's command, or the host's access. -/
theorem step_cases (s t : State) (h : step s = .next t) :
    (engineIsNext s.agenda = true ∧ s.pend = none ∧ t = { s with agenda := s.agenda.tail }) ∨
    (engineIsNext s.agenda = true ∧ ∃ w i, s.pend = some w ∧ decode w = .ok i ∧
      t = (performed i { s with agenda := s.agenda.tail }).complete) ∨
    (∃ a rest, s.agenda = .host a :: rest ∧ t = busAccess a { s with agenda := rest }) := by
  have engine : ∀ s' : State, engineTurn s' = .next t →
      (s'.pend = none ∧ t = s') ∨ (∃ w i, s'.pend = some w ∧ decode w = .ok i ∧ t = (performed i s').complete) := by
    intro s' h
    unfold engineTurn at h
    cases hp : s'.pend with
    | none =>
      rw [hp] at h
      injection h with h
      exact Or.inl ⟨rfl, h.symm⟩
    | some w =>
      cases hd : decode w with
      | error e => simp [hp, hd] at h
      | ok i =>
        simp only [hp, hd] at h
        exact Or.inr ⟨w, i, rfl, hd, (exec_next_iff i s' t).mp h⟩
  unfold step takeTurn at h
  cases ha : s.agenda with
  | nil =>
    rw [ha] at h
    have hs : { s with agenda := ([] : List Turn).tail } = s := by cases s; simp_all
    rw [hs]
    rcases engine s h with ⟨hp, ht⟩ | h
    · exact Or.inl ⟨rfl, hp, ht⟩
    · exact Or.inr (Or.inl ⟨rfl, h⟩)
  | cons x rest =>
    rw [ha] at h
    cases x with
    | engine =>
      rcases engine _ h with ⟨hp, ht⟩ | h
      · exact Or.inl ⟨rfl, hp, ht⟩
      · exact Or.inr (Or.inl ⟨rfl, h⟩)
    | host a =>
      injection h with h
      exact Or.inr (Or.inr ⟨a, rest, rfl, h.symm⟩)

/-- A run's first step. -/
theorem run_succ (M : Host.Core) (n : Nat) (s t : M.State) (h : M.step s = .next t) : M.run (n + 1) s = M.run n t := by
  rw [Host.Core.run, h]

/-- The one access that reaches a register as a legal write. -/
theorem eq_regWrite (a : Access) (v : Word) (r : Reg) (hl : a.legal = true) (hv : a.op = .write v)
    (ht : targetAt a.offset = .reg r) : a = ⟨BitVec.ofNat 12 (regOffset r), 4, .write v⟩ := by
  have e := targetAt_reg_eq _ _ ht
  obtain ⟨off, n, op⟩ := a
  dsimp only at *
  subst hv
  have hr : off.toNat < 0x400 := by rw [e]; cases r <;> decide
  rw [legal_outside _ _ _ (.inl hr)] at hl
  simp only [Bool.and_eq_true, beq_iff_eq] at hl
  rw [hl.1, ← e, BitVec.ofNat_toNat, BitVec.setWidth_eq]

theorem eq_ctrlWrite (a : Access) (v : Word) (hl : a.legal = true) (hv : a.op = .write v)
    (ht : targetAt a.offset = .reg .ctrl) : a = ctrlWrite v := eq_regWrite a v .ctrl hl hv ht

theorem eq_statusWrite (a : Access) (v : Word) (hl : a.legal = true) (hv : a.op = .write v)
    (ht : targetAt a.offset = .reg .status) : a = statusWrite v := eq_regWrite a v .status hl hv ht

end Sys2Proof.Machine
end

