-- ==== Sys2Proof/Laws/Decode.lean ====
section
/-! SUPPORT. The decoder as a chain of the opcode map's tests, and the encoder's words. -/

namespace Sys2Proof

/-- The all-ones mask of a row without operands. -/
theorem and_fullMask (w : Word) : w &&& 0xFFFFFFFF = w := by
  have : (0xFFFFFFFF : Word) = BitVec.allOnes 32 := by decide
  rw [this, BitVec.and_allOnes]

/-- A match fixes the opcode byte. -/
theorem low_of_match {w m v : Word} (h : w &&& m = v) (hm : m &&& 0xFF = 0xFF) : w &&& 0xFF = v &&& 0xFF := by
  rw [← h, BitVec.and_assoc, hm]

/-- A word that matches a row matches no row of another opcode. -/
theorem match_exclusive {w m v m' v' : Word} (h : w &&& m = v) (hm : m &&& 0xFF = 0xFF) (hm' : m' &&& 0xFF = 0xFF)
    (hne : v &&& 0xFF ≠ v' &&& 0xFF) : ¬ w &&& m' = v' := fun h' =>
  hne ((low_of_match h hm).symm.trans (low_of_match h' hm'))

/-- The bits of a word under a mask. -/
theorem bits_of_match {w m v : Word} (h : w &&& m = v) (i : Nat) : (w.getLsbD i && m.getLsbD i) = v.getLsbD i := by
  rw [← BitVec.getLsbD_and, h]

/-- `decode`, row by row (30_encoding.md R93). -/
theorem decode_eq (w : Word) : decode w =
    if w &&& 0xFFFFFFFF = 0x00000000 then .ok .nop
    else if w &&& 0xFFFFFFFF = 0x00000001 then .ok .ckInit
    else if w &&& 0xFFFF00FF = 0x00000002 then .ok (.ckFeed (fieldByte w))
    else if w &&& 0xF00000FF = 0x00000003 then .ok (.ckSpan (fieldStart w) (fieldLen w))
    else if w &&& 0xFFFFFFFF = 0x00000010 then .ok .frClear
    else if w &&& 0xFFFFFFFF = 0x00000011 then .ok .frEncode
    else if w &&& 0xFFFFFFFF = 0x00000012 then .ok .frSeal
    else if w &&& 0x0000FFFF = 0x00000013 then .ok (.frDecode (fieldRxlen w))
    else .error (if opAllocated (fieldOp w) then .mustBeZeroBit else .unallocatedOpcode) := by
  unfold decode opcodeMap
  simp only [List.find?_cons, OpcodeRow.selects, List.find?_nil, beq_eq_decide]
  by_cases h0 : w &&& 0xFFFFFFFF = 0x00000000
  · simp only [decide_eq_true h0, if_pos h0]
  simp only [decide_eq_false h0, if_neg h0]
  by_cases h1 : w &&& 0xFFFFFFFF = 0x00000001
  · simp only [decide_eq_true h1, if_pos h1]
  simp only [decide_eq_false h1, if_neg h1]
  by_cases h2 : w &&& 0xFFFF00FF = 0x00000002
  · simp only [decide_eq_true h2, if_pos h2]
  simp only [decide_eq_false h2, if_neg h2]
  by_cases h3 : w &&& 0xF00000FF = 0x00000003
  · simp only [decide_eq_true h3, if_pos h3]
  simp only [decide_eq_false h3, if_neg h3]
  by_cases h4 : w &&& 0xFFFFFFFF = 0x00000010
  · simp only [decide_eq_true h4, if_pos h4]
  simp only [decide_eq_false h4, if_neg h4]
  by_cases h5 : w &&& 0xFFFFFFFF = 0x00000011
  · simp only [decide_eq_true h5, if_pos h5]
  simp only [decide_eq_false h5, if_neg h5]
  by_cases h6 : w &&& 0xFFFFFFFF = 0x00000012
  · simp only [decide_eq_true h6, if_pos h6]
  simp only [decide_eq_false h6, if_neg h6]
  by_cases h7 : w &&& 0x0000FFFF = 0x00000013
  · simp only [decide_eq_true h7, if_pos h7]
  simp only [decide_eq_false h7, if_neg h7]

/-- The encoder's words, written with their fields (30_encoding.md R91). -/
theorem encode_eq (i : Instr) : encode i =
    match i with
    | .nop => 0x00000000#32
    | .ckInit => 0x00000001#32
    | .ckFeed byte => byte.setWidth 32 <<< 8 ||| 0x02#32
    | .ckSpan start len => len.setWidth 32 <<< 18 ||| start.setWidth 32 <<< 8 ||| 0x03#32
    | .frClear => 0x10#32
    | .frEncode => 0x11#32
    | .frSeal => 0x12#32
    | .frDecode rxlen => rxlen.setWidth 32 <<< 16 ||| 0x13#32 := by
  cases i <;> rfl

end Sys2Proof
end

