-- ==== Sys2Proof/Laws/PerInstr.lean ====
section
/-! SUPPORT. A statement about every command as syntax, one lemma a constructor: its encoded word selects its own row. -/

namespace Sys2Proof.Laws.SelectsItsRow

/-- The match word of a command's row in the opcode map (30_encoding.md R93). -/
def rowMatch : Instr → Word
  | .nop => 0x00000000
  | .ckInit => 0x00000001
  | .ckFeed _ => 0x00000002
  | .ckSpan _ _ => 0x00000003
  | .frClear => 0x00000010
  | .frEncode => 0x00000011
  | .frSeal => 0x00000012
  | .frDecode _ => 0x00000013

/-- The command's encoded word is selected by the row of the opcode map that has its match word. -/
def Statement (i : Instr) : Prop := ∃ r ∈ opcodeMap, r.matchWord = rowMatch i ∧ r.selects (encode i) = true

end Sys2Proof.Laws.SelectsItsRow

namespace Sys2Proof.Laws

/-- A word bit by bit: `w & mask == match` on concatenated fields. -/
theorem and_eq_of_bits (w m v : Word) (h : ∀ i < 32, (w.getLsbD i && m.getLsbD i) = v.getLsbD i) : w &&& m = v := by
  apply BitVec.eq_of_getLsbD_eq
  intro i hi
  rw [BitVec.getLsbD_and]
  exact h i hi

theorem SelectsItsRow.nop : SelectsItsRow.Statement .nop := by
  exact ⟨⟨0x00000000, 0xFFFFFFFF, fun _ => .nop⟩, by simp [opcodeMap], rfl, by decide⟩

theorem SelectsItsRow.ckInit : SelectsItsRow.Statement .ckInit := by
  exact ⟨⟨0x00000001, 0xFFFFFFFF, fun _ => .ckInit⟩, by simp [opcodeMap], rfl, by decide⟩

theorem SelectsItsRow.ckFeed (byte : BitVec 8) : SelectsItsRow.Statement (.ckFeed byte) := by
  refine ⟨⟨0x00000002, 0xFFFF00FF, fun w => .ckFeed (fieldByte w)⟩, by simp [opcodeMap], rfl, ?_⟩
  simp only [OpcodeRow.selects, encode, formatB, beq_iff_eq]
  apply and_eq_of_bits
  intro i hi
  interval_cases i <;> simp [BitVec.getElem_setWidth]

theorem SelectsItsRow.ckSpan (start len : BitVec 10) : SelectsItsRow.Statement (.ckSpan start len) := by
  refine ⟨⟨0x00000003, 0xF00000FF, fun w => .ckSpan (fieldStart w) (fieldLen w)⟩, by simp [opcodeMap], rfl, ?_⟩
  simp only [OpcodeRow.selects, encode, formatS, beq_iff_eq]
  apply and_eq_of_bits
  intro i hi
  interval_cases i <;> simp [BitVec.getElem_setWidth]

theorem SelectsItsRow.frClear : SelectsItsRow.Statement .frClear := by
  exact ⟨⟨0x00000010, 0xFFFFFFFF, fun _ => .frClear⟩, by simp [opcodeMap], rfl, by decide⟩

theorem SelectsItsRow.frEncode : SelectsItsRow.Statement .frEncode := by
  exact ⟨⟨0x00000011, 0xFFFFFFFF, fun _ => .frEncode⟩, by simp [opcodeMap], rfl, by decide⟩

theorem SelectsItsRow.frSeal : SelectsItsRow.Statement .frSeal := by
  exact ⟨⟨0x00000012, 0xFFFFFFFF, fun _ => .frSeal⟩, by simp [opcodeMap], rfl, by decide⟩

theorem SelectsItsRow.frDecode (rxlen : BitVec 16) : SelectsItsRow.Statement (.frDecode rxlen) := by
  refine ⟨⟨0x00000013, 0x0000FFFF, fun w => .frDecode (fieldRxlen w)⟩, by simp [opcodeMap], rfl, ?_⟩
  simp only [OpcodeRow.selects, encode, formatL, beq_iff_eq]
  apply and_eq_of_bits
  intro i hi
  interval_cases i <;> simp [BitVec.getElem_setWidth]

end Sys2Proof.Laws
end

