-- ==== Sys2Proof/Tests/Slice0.lean ====
section
/-! SUPPORT. Small tests, each with the vector of 95_test_vectors.md (or the rule's example) its expected values come from, and one
witness for the hypotheses of each statement. -/

namespace Sys2Proof.Tests

-- One proof at a time: each `decide +kernel` would else hold a thread of its own.
set_option Elab.async false

open Sys2Proof.Machine

/-! ### Helpers -/

/-- The state after power-on reset with these bytes written. -/
def withBuf (m : Memory) : State := { State.reset with buf := m }

/-- The state after power-on reset with a command word pending. -/
def pending (w : Word) : State := { State.reset with pend := some w }

/-- The state after power-on reset with these turns to come. -/
def turns (ts : List Turn) : State := { State.reset with agenda := ts }

/-- A check of the state a command leaves. -/
def after (i : Instr) (s : State) (p : State → Bool) : Bool :=
  match exec i s with
  | .next t => p t
  | .fault _ => false
  | .refused _ => false

/-- A check of the state one step leaves. -/
def afterStep (s : State) (p : State → Bool) : Bool :=
  match step s with
  | .next t => p t
  | .fault _ => false
  | .refused _ => false

/-- A header-only frame of a type, the bytes that encode reads: type, subtype, an empty string in each field. -/
def header (t : Byte) : Memory := [(0, t), (1, 0), (4, 0), (22, 0), (40, 0), (58, 0), (59, 0), (60, 0), (61, 0), (62, 0)]

/-- A header without a zero in its first 58 bytes (V-FR-12). -/
def fullHeader : Memory :=
  Memory.put [] 0 ([0x01, 0x22, 0x33, 0x44] ++ List.replicate 18 0x41 ++ List.replicate 18 0x42 ++ List.replicate 18 0x43)

/-- "Hello, this is a data payload" and its terminator (P2). -/
def hello : List Byte :=
  [0x48, 0x65, 0x6C, 0x6C, 0x6F, 0x2C, 0x20, 0x74, 0x68, 0x69, 0x73, 0x20, 0x69, 0x73, 0x20, 0x61, 0x20, 0x64, 0x61, 0x74, 0x61,
    0x20, 0x70, 0x61, 0x79, 0x6C, 0x6F, 0x61, 0x64, 0x00]

/-! ### Well-formedness: the one check (R96, R243; V-K-10 to V-K-12) -/

theorem test_wf_span_too_long : Instr.wf (.ckSpan 570 5) = false := by decide
theorem test_wf_span_start_beyond : Instr.wf (.ckSpan 575 0) = false := by decide
theorem test_wf_span_largest : Instr.wf (.ckSpan 0 574) = true := by decide
theorem test_wf_span_empty_at_end : Instr.wf (.ckSpan 574 0) = true := by decide

/-! ### Decoding: each word written out from R91's formats, field by field -/

theorem test_decode_nop : decode 0b0000000000000000_00000000_00000000#32 = .ok .nop := by decide
theorem test_decode_ckInit : decode 0b0000000000000000_00000000_00000001#32 = .ok .ckInit := by decide
/-- BYTE = 'a' in bits 15:8. -/
theorem test_decode_ckFeed : decode 0b0000000000000000_01100001_00000010#32 = .ok (.ckFeed 0x61) := by decide
/-- 0 in bits 31:28, LEN = 5 in bits 27:18, START = 570 in bits 17:8. -/
theorem test_decode_ckSpan : decode 0b0000_0000000101_1000111010_00000011#32 = .ok (.ckSpan 570 5) := by decide
theorem test_decode_frClear : decode 0b0000000000000000_00000000_00010000#32 = .ok .frClear := by decide
theorem test_decode_frEncode : decode 0b0000000000000000_00000000_00010001#32 = .ok .frEncode := by decide
theorem test_decode_frSeal : decode 0b0000000000000000_00000000_00010010#32 = .ok .frSeal := by decide
/-- RXLEN = 574 in bits 31:16, 0 in bits 15:8. -/
theorem test_decode_frDecode : decode 0b0000001000111110_00000000_00010011#32 = .ok (.frDecode 574) := by decide

/-- V-S-17, V-S-18, V-K-14, V-K-15, V-FR-27. -/
theorem test_decode_illegal :
    decode 0x00000004 = .error .unallocatedOpcode ∧ decode 0x00000100 = .error .mustBeZeroBit ∧
    decode 0x00016102 = .error .mustBeZeroBit ∧ decode 0x10140003 = .error .mustBeZeroBit ∧
    decode 0x023E0113 = .error .mustBeZeroBit ∧ decode 0x00000014 = .error .unallocatedOpcode := by decide

/-- The words of part 2 and 3 of 95_test_vectors.md. -/
theorem test_encode :
    [encode (.ckFeed 0x61), encode (.ckSpan 0 5), encode (.ckSpan 0 574), encode (.ckSpan 574 0), encode (.frDecode 574),
      encode (.frDecode 600)]
      = [0x00006102, 0x00140003, 0x08F80003, 0x00023E03, 0x023E0013, 0x02580013] := by decide

theorem test_decodeTableWord : decodeTableWord 32 0x00140003 = some (.ckSpan 0 5) ∧ decodeTableWord 32 0x04 = none := by decide

/-- R95's pseudo-instructions. -/
theorem test_assemble :
    assemble (.ckStr [0x61, 0x62]) = some [.ckFeed 0x61, .ckFeed 0x62] ∧ assemble (.ckHash 0 5) = some [.ckInit, .ckSpan 0 5] ∧
    assemble .frRecv = some [.frDecode 574] ∧ assemble (.ckFeed 256) = none ∧ assemble (.ckHash 0 1024) = none := by decide

/-! ### The checksum engine (V-P, V-C) -/

theorem test_mix : mix 0 0x61 = 0x00018270 ∧ mix 0xFFFFFFFF 0xFF = 0x0003F71D ∧ mix 0 0 = 0 := by decide
theorem test_fin : fin 0x00018270 = 0xCA2E9442 ∧ fin 1 = 0x00048009 ∧ fin 0xFFFFFFFF = 0xFFE40008 ∧ fin 0 = 0 := by decide
/-- V-C-7, V-C-8: the byte is added unsigned. -/
theorem test_checksum_unsigned : checksum true [0xFF] = 0xC7B20F1D ∧ checksum true [0x80] = 0x277FCEDB := by decide
/-- V-C-14. -/
theorem test_checksum_four : checksum true [0x10, 0x05, 0x34, 0x12] = 0x71612227 := by decide
/-- V-C-15. -/
theorem test_zero_stop : Engine.init.feed true [0x61, 0x62, 0x00, 0x63, 0x64] = ⟨0x0614F9F9, true, 2⟩ := by decide
/-- V-C-16. -/
theorem test_no_zero_stop : Engine.init.feed false [0x61, 0x62, 0x00, 0x63, 0x64] = ⟨0xD7B98918, false, 5⟩ := by decide

/-! ### One command each -/

/-- V-S-19. -/
theorem test_nop : after .nop (pending 0) (fun t => t == State.reset) = true := by decide
/-- V-K-1. -/
theorem test_ckInit :
    after .ckInit { pending 1 with eng := ⟨0x589993F5, true, 3⟩ } (fun t => t == State.reset) = true := by decide
/-- V-K-2. -/
theorem test_ckFeed : after (.ckFeed 0x61) (pending 0x6102) (fun t => t.eng == ⟨0x00018270, false, 1⟩ && !t.busy) = true := by
  decide
/-- V-K-5: a byte after the zero is refused. -/
theorem test_ckFeed_terminated :
    after (.ckFeed 0x61) { State.reset with eng := ⟨0, true, 0⟩ } (fun t => t.eng == ⟨0, true, 0⟩) = true := by decide
/-- V-K-8. -/
theorem test_ckSpan :
    after (.ckSpan 0 5) (withBuf [(0, 0x61), (1, 0x62), (2, 0), (3, 0x63), (4, 0x64)])
      (fun t => t.eng == ⟨0x0614F9F9, true, 2⟩ && statusWord t == 0x00000002) = true := by decide +kernel
/-- V-K-10. -/
theorem test_ckSpan_empty : after (.ckSpan 574 0) State.reset (fun t => t == State.reset) = true := by decide +kernel
/-- V-FR-28. -/
theorem test_frClear :
    after .frClear (withBuf [(0, 0x5A), (573, 0x5A)])
      (fun t => t.buf.read 0 == 0 && t.buf.read 573 == 0 && t.buf.length == 574 && statusWord t == 0) = true := by decide +kernel
/-- V-FR-2, its `CALC`, integrity bytes, `CNT`, `PLEN` and `STATUS`. -/
theorem test_frEncode_probe :
    after .frEncode (withBuf (header 0x01))
      (fun t => t.calcReg == 0x124EA49D && t.buf.bytes 58 4 == [0x9D, 0xA4, 0x4E, 0x12] && t.eng.cnt == 1 && t.plen == 0 &&
        statusWord t == 0x00000002) = true := by decide +kernel
/-- V-FR-5: a Data frame, payload "Hello, this is a data payload". -/
theorem test_frEncode_data :
    after .frEncode (withBuf ((header 0x10).put 62 hello))
      (fun t => t.plen == 29 && t.calcReg == 0x24EEC9D9 && t.buf.bytes 90 3 == [0x64, 0, 0]) = true := by decide +kernel
/-- V-FR-11: the reserved fields are kept and hashed. -/
theorem test_frSeal :
    after .frSeal (withBuf ((header 0x10).put 1 [0x05, 0x34, 0x12]))
      (fun t => t.eng == ⟨0x4AB4A102, true, 4⟩ && t.buf.bytes 58 4 == [0x27, 0x22, 0x61, 0x71] &&
        t.buf.bytes 1 3 == [0x05, 0x34, 0x12]) = true := by decide +kernel
/-- V-FR-12: no zero in the first 58 bytes. -/
theorem test_frSeal_full_header :
    after .frSeal (withBuf fullHeader) (fun t => t.eng == ⟨0x8AA4A77C, true, 58⟩ && t.calcReg == 0xED021A60) = true := by
  decide +kernel
/-- V-FR-18: a wrong integrity. -/
theorem test_frDecode_mismatch :
    after (.frDecode 574) (withBuf ((header 0x10).put 58 [0xEF, 0xBE, 0xAD, 0xDE]))
      (fun t => statusWord t == 0x00000062 && t.calcReg == 0x24EEC9D9 && t.rxfcs == 0xDEADBEEF) = true := by decide +kernel
/-- V-FR-21: the bytes not received read as zero. -/
theorem test_frDecode_short :
    after (.frDecode 1) (withBuf [(0, 0x00), (5, 0x09)])
      (fun t => statusWord t == 0x00000016 && t.rxfcs == 0 && t.buf.read 5 == 0) = true := by decide +kernel

/-- V-Z-2, V-Z-3 (header only): the build with `ZERO_STOP` 0 mixes the zeros too. -/
theorem test_no_zero_stop_frames :
    frameDigest false ((0, 0x01) :: (List.range 61).map fun k => (k + 1, 0)) = 0x8D99CAA0 ∧
    frameDigest false ((0, 0x02) :: (List.range 61).map fun k => (k + 1, 0)) = 0xE97BCCAB := by decide +kernel

/-! ### The bus -/

/-- V-S-1, V-S-2. -/
theorem test_id_param :
    (busAccess ⟨0x000, 4, .read⟩ State.reset).resp = some ⟨some 0x46435331, false⟩ ∧
    (busAccess ⟨0x028, 4, .read⟩ State.reset).resp = some ⟨some 0x023E0001, false⟩ := by decide +kernel
/-- V-S-7. -/
theorem test_status_w1c :
    statusWord (busAccess (statusWrite 0x100) { State.reset with errCmd := true, errRange := true }) = 0x00000200 := by
  decide +kernel
/-- V-S-9: a soft reset aborts the pending command. -/
theorem test_soft_reset :
    statusWord { pending 0 with errCmd := true, errBusy := true } = 0x00000501 ∧
    statusWord (busAccess (ctrlWrite 1) { pending 0 with errCmd := true, errBusy := true }) = 0 := by decide +kernel
/-- V-S-11. -/
theorem test_bad_size :
    (busAccess ⟨0x008, 1, .read⟩ State.reset).resp = some ⟨some 0, true⟩ ∧
    statusWord (busAccess ⟨0x008, 1, .read⟩ State.reset) = 0x00000800 := by decide +kernel
/-- V-S-14. -/
theorem test_read_at_the_end :
    (busAccess ⟨0x63C, 4, .read⟩ (withBuf [(572, 0xAA), (573, 0xBB)])).resp = some ⟨some 0x0000BBAA, false⟩ := by
  decide +kernel
/-- V-S-15. -/
theorem test_write_at_the_end :
    (busAccess ⟨0x63C, 4, .write 0x11223344⟩ State.reset).buf = [(572, 0x44), (573, 0x33)] := by decide +kernel
/-- V-K-11, V-S-17, V-S-20: out of range, illegal, busy before illegal. -/
theorem test_refused_commands :
    statusWord (busAccess (cmdWrite 0x00163A03) State.reset) = 0x00000200 ∧
    statusWord (busAccess (cmdWrite 0x00000004) State.reset) = 0x00000100 ∧
    statusWord (busAccess (cmdWrite 0x00000004) (pending 0)) = 0x00000401 := by decide +kernel
/-- P5 steps 1 and 2: accepted; then a frame write is ignored. -/
theorem test_busy :
    statusWord (busAccess (cmdWrite 0x10) State.reset) = 0x00000001 ∧
    statusWord (busAccess ⟨0x400, 1, .write 0x10⟩ (pending 0x10)) = 0x00000401 ∧
    (busAccess ⟨0x400, 1, .write 0x10⟩ (pending 0x10)).buf = [] := by decide +kernel
/-- V-S-16 (start: any), while a command is pending: the tail reads 0; of the word at 0x63C the upper half does. -/
theorem test_tail_while_busy :
    (busAccess ⟨0x63E, 1, .read⟩ (pending 0x10)).resp = some ⟨some 0, false⟩ ∧ unspecifiedBits 4 (.frame 572) = 0x0000FFFF ∧
    unspecifiedBits 4 (.frame 568) = 0xFFFFFFFF := by
  refine ⟨?_, by decide +kernel, by decide +kernel⟩
  have h : readData (pending 0x10) 1 (.frame 574) = 0 := by
    have hu : unspecifiedBits 1 (.frame 574) = 0 := by decide +kernel
    have hv : readValue (pending 0x10) 1 (.frame 574) = 0 := by decide +kernel
    rw [readData, hu, hv]
    simp
  exact congrArg (fun v => some (BusResponse.mk (some v) false)) h
/-- `withFetchWord`: the next step performs the word. -/
theorem test_withFetchWord :
    afterStep (State.reset.withFetchWord 32 0x00006102) (fun t => t.eng == ⟨0x00018270, false, 1⟩ && !t.busy) = true := by
  decide +kernel

/-! ### Witnesses: concrete states and operands that meet the hypotheses of each statement -/

theorem witness_EncodeOfDecodeIsTheWord : decode 0x0FFFFF03 = .ok (.ckSpan 1023 1023) := by decide +kernel

/-- A word for each row of the map; two rows and a word that selects both (the same row). -/
theorem witness_OpcodeMapSelectsByMatchAndMask :
    0x0000FF02#32 &&& 0xFFFF00FF = 0x00000002 ∧ 0x08F80003#32 &&& 0xF00000FF = 0x00000003 ∧
    0xFFFF0013#32 &&& 0x0000FFFF = 0x00000013 ∧ ∃ r ∈ opcodeMap, r.selects 0x10 = true := by
  refine ⟨by decide +kernel, by decide +kernel, by decide +kernel, ⟨0x00000010, 0xFFFFFFFF, fun _ => .frClear⟩, by simp [opcodeMap], by decide +kernel⟩

theorem witness_IllegalWordsAreRefused : decode 0x00000014 = .error .unallocatedOpcode ∧ State.reset.pend = none := by decide +kernel

theorem witness_AssemblerExpandsPseudoInstructions : 0 < 1024 ∧ 1023 < 1024 := by decide

theorem witness_FinIsTheUnsignedFormula : State.reset.pend = none := by decide

/-- Each clause: terminated; a zero byte; a nonzero byte; a zero byte without the zero stop. -/
theorem witness_OfferFollowsTheMixingStep :
    (⟨0, true, 0⟩ : Engine).term = true ∧ Engine.init.term = false ∧ (0#8 = 0) ∧ (false = false ∨ 0xFF#8 ≠ 0) ∧
    (true = false ∨ 0x01#8 ≠ 0) := by decide

/-- Both clauses at their bounds. -/
theorem witness_CkSpanOffersTheSpan :
    (570#10).toNat + (4#10).toNat ≤ 574 ∧ (0#10).toNat + (574#10).toNat ≤ 574 ∧ (574#10).toNat ≤ 574 := by decide

theorem witness_OutOfRangeSpanPerformed :
    574 < (570#10).toNat + (5#10).toNat ∧ 574 < (1023#10).toNat + (1023#10).toNat := by decide

theorem witness_SpanEqualsFeeds : (573#10).toNat + (1#10).toNat ≤ 574 := by decide

/-- A string that ends at its first byte, one that ends later, and one without a terminator. -/
theorem witness_StrnlenIsTheFirstZero :
    strnlen (header 1) 4 17 = 0 ∧ strnlen (header 1) 0 58 = 1 ∧ strnlen fullHeader 4 17 = 17 := by decide +kernel

/-- Each clause: a zero type, a zero subtype, no zero before 58; and a buffer that agrees with another before 58. -/
theorem witness_FrameDigestStopsAtTheFirstZero :
    (header 0).read 0 = 0 ∧ (header 1).read 1 = 0 ∧ strnlen (header 1) 0 58 = 1 ∧ strnlen fullHeader 0 58 = 58 ∧
    (∀ a < 58, (fullHeader.put 58 [1]).read a = fullHeader.read a) := by decide +kernel

/-- V-FR-14: another payload byte. -/
theorem witness_BytesAfterTheFirstZeroAreNotHashed :
    (∀ a < 58, a ≤ strnlen (header 0x10) 0 58 → ((header 0x10).put 70 [0x69]).read a = (header 0x10).read a) ∧
    ((header 0x10).put 62 [0x69]).read 62 ≠ (header 0x10).read 62 := by
  refine ⟨fun a h h' => ?_, by decide +kernel⟩
  have hs : strnlen (header 0x10) 0 58 = 1 := by decide +kernel
  rw [hs] at h'
  interval_cases a <;> decide +kernel

/-- Each row of the table. -/
theorem witness_EncodedIntegrityTable :
    (withBuf (header 0x00)).buf.read 0 = 0x00 ∧ (withBuf (header 0x01)).buf.read 0 = 0x01 ∧
    (withBuf (header 0x02)).buf.read 0 = 0x02 ∧ (withBuf (header 0x10)).buf.read 0 = 0x10 ∧
    (withBuf (header 0xFF)).buf.read 0 = 0xFF ∧ (withBuf (header 0x03)).buf.read 0 ≠ 0 := by decide

/-- Two Data frames with equal inputs that differ in the subtype and after the terminators. -/
theorem witness_EncodeDependsOnItsInputsAlone :
    sameEncodeInputs (withBuf (header 0x10)).buf (withBuf ((header 0x10).put 1 [7, 9])).buf ∧
    (header 0x10).read 0 = 0x10 := by
  refine ⟨⟨by decide +kernel, by decide +kernel, fun _ => by decide +kernel⟩, by decide⟩

/-- Every length but 0 with an invalid type; the shortest, the exact and the longest. -/
theorem witness_TypeCheckPrecedesIntegrityCheck :
    (1#16 ≠ 0 ∧ 574#16 ≠ 0 ∧ 65535#16 ≠ 0) ∧ (withBuf (header 0x11)).buf.read 0 ∉ [0x00#8, 0x01#8, 0x02#8, 0x10#8] := by decide

/-- A frame of each valid type, with its code. -/
theorem witness_FrDecodeChecksTheIntegrity :
    (1#16 ≠ 0 ∧ 573#16 ≠ 0 ∧ 574#16 ≠ 0 ∧ 575#16 ≠ 0) ∧ (withBuf (header 0x00)).buf.read 0 = 0x00 ∧
    (withBuf (header 0x01)).buf.read 0 = 0x01 ∧ (withBuf (header 0x02)).buf.read 0 = 0x02 ∧
    (withBuf (header 0x10)).buf.read 0 = 0x10 ∧ okCode (frameTypeOf 0x10) = some .okData := by decide

/-- A frame of each valid type and an invalid one to encode, and a state with the encoded buffer. -/
theorem witness_EncodeThenDecodeRoundTrip :
    (∃ t, exec .frEncode (withBuf (header 0x02)) = .next t ∧ (withBuf t.buf).buf = t.buf) ∧
    (withBuf (header 0x00)).buf.read 0 = 0x00 ∧ (withBuf (header 0x01)).buf.read 0 = 0x01 ∧
    (withBuf (header 0x02)).buf.read 0 = 0x02 ∧ (withBuf (header 0x10)).buf.read 0 = 0x10 ∧
    (withBuf (header 0x03)).buf.read 0 ∉ [0x00#8, 0x01#8, 0x02#8, 0x10#8] := by
  exact ⟨⟨_, rfl, rfl⟩, by decide, by decide, by decide, by decide, by decide⟩

/-- Each of the three operations. -/
theorem witness_FrameOperationsOverwriteTheEngine :
    (∃ t, exec .frEncode (withBuf (header 1)) = .next t) ∧ (∃ t, exec .frSeal (withBuf (header 1)) = .next t) ∧
    (574#16 ≠ 0 ∧ (withBuf (header 1)).buf.read 0 ∈ [0x00#8, 0x01#8, 0x02#8, 0x10#8] ∧
      ∃ t, exec (.frDecode 574) (withBuf (header 1)) = .next t) := by
  exact ⟨⟨_, rfl⟩, ⟨_, rfl⟩, by decide, by decide, _, rfl⟩

/-- A misaligned and a wrong-sized write to `STATUS`. -/
theorem witness_StatusWriteClearsErrors :
    (0x008 ≤ (0x008#12).toNat ∧ (0x008#12).toNat < 0x00C ∧ ¬ (0x008#12 = 0x008 ∧ 2 = 4)) ∧
    (0x008 ≤ (0x00B#12).toNat ∧ (0x00B#12).toNat < 0x00C ∧ ¬ (0x00B#12 = 0x008 ∧ 4 = 4)) := by decide

/-- The first and last reserved offsets, and the window tail's. -/
theorem witness_RegisterReadsReturnTheirValues :
    State.reset.pend = none ∧
    ([0x02C#12, 0x3FC#12, 0x640#12, 0x7FC#12, 0x800#12, 0xFFC#12].all fun off => decide (off.toNat % 4 = 0 ∧
      ((0x02C ≤ off.toNat ∧ off.toNat < 0x400) ∨ (0x640 ≤ off.toNat ∧ off.toNat < 0x1000)))) = true := by decide +kernel

/-- An illegal read and an illegal write. -/
theorem witness_IllegalAccessesAreNotPerformed :
    Access.legal ⟨0x008, 1, .read⟩ = false ∧ Access.legal ⟨0x401, 2, .write 0x1234⟩ = false := by decide

/-- The window's first byte, its last word, and the word across the buffer's end. -/
theorem witness_FrameWindowWriteStoresItsBytes :
    State.reset.pend = none ∧
    (0x400 ≤ (0x400#12).toNat ∧ (0x400#12).toNat < 0x800 ∧ Access.legal ⟨0x400, 1, .write 0⟩ = true) ∧
    (0x400 ≤ (0x63C#12).toNat ∧ (0x63C#12).toNat < 0x800 ∧ Access.legal ⟨0x63C, 4, .write 0⟩ = true) ∧
    (0x400 ≤ (0x7FC#12).toNat ∧ (0x7FC#12).toNat < 0x800 ∧ Access.legal ⟨0x7FC, 4, .write 0⟩ = true) := by decide

theorem witness_FrameWindowReadReturnsItsBytes :
    State.reset.pend = none ∧
    (0x400 ≤ (0x400#12).toNat ∧ (0x400#12).toNat < 0x800 ∧ Access.legal ⟨0x400, 1, .read⟩ = true) ∧
    (0x400 ≤ (0x63C#12).toNat ∧ (0x63C#12).toNat < 0x800 ∧ Access.legal ⟨0x63C, 4, .read⟩ = true) ∧
    (0x400 ≤ (0x7FE#12).toNat ∧ (0x7FE#12).toNat < 0x800 ∧ Access.legal ⟨0x7FE, 2, .read⟩ = true) := by decide

theorem witness_ReadsChangeNoState : Access.legal ⟨0x7FF, 1, .read⟩ = true ∧ Access.legal ⟨0xFFC, 4, .read⟩ = true := by decide

/-- Each clause at its bounds. -/
theorem witness_ReadOnlyAndReservedIgnoreWrites :
    ([0x02C#12, 0x3FC#12, 0x800#12, 0xFFC#12].all fun off => decide (off.toNat % 4 = 0 ∧
      ((0x02C ≤ off.toNat ∧ off.toNat < 0x400) ∨ 0x800 ≤ off.toNat))) = true ∧
    (State.reset.pend = none ∧ 0x63E ≤ (0x63E#12).toNat ∧ (0x7FF#12).toNat < 0x800 ∧
      Access.legal ⟨0x63E, 2, .write 0x55⟩ = true ∧ Access.legal ⟨0x7FF, 1, .write 0x55⟩ = true) ∧
    (0xFFFFFFFE#32).getLsbD 0 = false ∧ (0xFFFFF0FF#32).extractLsb' 8 4 = 0 := by decide +kernel

/-- Each clause: busy; idle with an illegal word, a span too long by one, the longest span, another command; a wrong size. -/
theorem witness_IssueHasOneOutcome :
    (pending 0).busy = true ∧ State.reset.busy = false ∧ decode 0x00000100 = .error .mustBeZeroBit ∧
    (decode 0x00163A03 = .ok (.ckSpan 570 5) ∧ (0x00163A03#32).extractLsb' 0 8 = 0x03#8 ∧
      574 < ((0x00163A03#32).extractLsb' 8 10).toNat + ((0x00163A03#32).extractLsb' 18 10).toNat) ∧
    (decode 0x08F80003 = .ok (.ckSpan 0 574) ∧
      ¬ ((0x08F80003#32).extractLsb' 0 8 = 0x03#8 ∧
        574 < ((0x08F80003#32).extractLsb' 8 10).toNat + ((0x08F80003#32).extractLsb' 18 10).toNat)) ∧
    (decode 0xFFFF0013 = .ok (.frDecode 65535) ∧ ¬ (0xFFFF0013#32).extractLsb' 0 8 = 0x03#8) ∧ 2 ≠ 4 := by decide +kernel

theorem witness_OnlySpanHasARangeCheck :
    State.reset.pend = none ∧ 574 < (574#10).toNat + (1#10).toNat ∧ (∀ start len, Instr.frDecode 65535 ≠ .ckSpan start len) := by
  exact ⟨by decide, by decide, fun _ _ h => by cases h⟩

/-- Each error, an access without one, and a completing command. -/
theorem witness_OneErrorInPriorityOrder :
    firstError (pending 0) ⟨0x401, 2, .write 0⟩ = some .bus ∧ firstError (pending 0) (cmdWrite 4) = some .busy ∧
    firstError State.reset (cmdWrite 4) = some .cmd ∧ firstError State.reset (cmdWrite 0x00163A03) = some .range ∧
    firstError State.reset (cmdWrite 0) = none ∧ (Instr.wf .frSeal = true ∧ ∃ t, exec .frSeal State.reset = .next t) := by
  exact ⟨by decide +kernel, by decide +kernel, by decide +kernel, by decide +kernel, by decide +kernel, by decide, _, rfl⟩

/-- A step of each kind that clears an error bit, and a legal access that raises one. -/
theorem witness_OneErrorInPriorityOrder_cleared :
    (∃ t, step { turns [w32 0x008 0x800] with errBus := true } = .next t ∧ t.error .bus = false) ∧
    (∃ t, step { turns [w32 0x004 1] with errCmd := true } = .next t ∧ t.error .cmd = false) ∧
    (cmdWrite 4).legal = true := by
  exact ⟨⟨_, rfl, by decide +kernel⟩, ⟨_, rfl, by decide +kernel⟩, by decide +kernel⟩

/-- Two states that differ only in error bits, and the step of one. -/
theorem witness_ErrorsBlockNothing :
    ({ pending 1 with errCmd := true } : State).lessErrors = (pending 1).lessErrors ∧
    ∃ t, step { pending 1 with errCmd := true } = .next t := by
  exact ⟨rfl, _, rfl⟩

theorem witness_PowerOnResetValues :
    Access.legal ⟨0x7FE, 2, .read⟩ = true ∧ Access.legal ⟨0x00C, 4, .write 4⟩ = true := by decide

theorem witness_UnwrittenBytesAreUnconstrained : Memory.written [(0, 1)] 573 = none := by decide

theorem witness_SoftResetRestoresPowerOnValues : (1#32).getLsbD 0 = true ∧ State.reset.pend = none := by decide

/-- A pending command that writes bytes, and one that writes none. -/
theorem witness_AbortLeavesEachByteOldOrNew :
    (0xFFFFFFFF#32).getLsbD 0 = true ∧
    ((pending 0x10).pend = some 0x10 ∧ decode 0x10 = .ok .frClear ∧ ∃ u, exec .frClear (pending 0x10) = .next u) ∧
    ((pending 0x6102).pend = some 0x6102 ∧ decode 0x6102 = .ok (.ckFeed 0x61) ∧
      ∃ u, exec (.ckFeed 0x61) (pending 0x6102) = .next u) := by
  exact ⟨by decide, ⟨rfl, by decide, _, rfl⟩, rfl, by decide, _, rfl⟩

/-- Busy; a legal window write at each end; a write outside the window at each end. -/
theorem witness_WritesWhileBusy :
    (pending 0x10).busy = true ∧ Access.legal ⟨0x400, 1, .write 0x10⟩ = true ∧ Access.legal ⟨0x7FF, 1, .write 0x10⟩ = true ∧
    ([0x000#12, 0x010#12, 0x3FC#12, 0x800#12, 0xFFC#12].all fun off => decide (off.toNat % 4 = 0 ∧
      (off.toNat < 0x400 ∨ 0x800 ≤ off.toNat) ∧ off ∉ [0x004#12, 0x008#12, 0x00C#12])) = true := by decide +kernel

theorem witness_ReadsWhileBusy :
    (pending 0x10).busy = true ∧ Access.legal ⟨0x400, 4, .read⟩ = true ∧ Access.legal ⟨0x63C, 4, .read⟩ = true ∧
    Access.legal ⟨0x7FF, 1, .read⟩ = true ∧
    ([0x02C#12, 0x3FC#12, 0x800#12, 0xFFC#12].all fun off => decide (off.toNat % 4 = 0 ∧
      ((0x02C ≤ off.toNat ∧ off.toNat < 0x400) ∨ 0x800 ≤ off.toNat))) = true := by decide +kernel

/-- An access that is no `CTRL` write, and a `CTRL` write that resets nothing. -/
theorem witness_PendingCommandCannotBeChanged :
    (pending 0x10).busy = true ∧ (∀ v, cmdWrite 1 = ctrlWrite v → v.getLsbD 0 = false) ∧
    (∀ v, ctrlWrite 2 = ctrlWrite v → v.getLsbD 0 = false) := by
  refine ⟨by decide, fun v h => ?_, fun v h => ?_⟩
  · simp [cmdWrite, ctrlWrite] at h
  · simp only [ctrlWrite, Access.mk.injEq, BusOp.write.injEq, true_and] at h
    rw [← h]
    decide

/-- Each clause: the engine with a command, the engine with none, the host. -/
theorem witness_StepRunsThePendingCommand :
    (engineIsNext (pending 1).agenda = true ∧ (pending 1).pend = some 1 ∧ decode 1 = .ok .ckInit) ∧
    (engineIsNext (turns [.engine]).agenda = true ∧ (turns [.engine]).pend = none) ∧
    (turns [r32 0x008]).agenda = .host ⟨0x008, 4, .read⟩ :: [] := by decide

theorem witness_BusyFollowsThePendingCommand :
    State.reset.pend = none ∧ decode 0x08F80003 = .ok (.ckSpan 0 574) ∧ Instr.wf (.ckSpan 0 574) = true ∧
    (1#32).getLsbD 0 = true := by decide +kernel

/-- A step of each kind that changes the result. -/
theorem witness_OnlyDecodeAndResetWriteTheResult :
    (∃ t, step (pending 0x13) = .next t ∧ t.result ≠ (pending 0x13).result) ∧
    (∃ t, step { turns [w32 0x004 1] with result := .empty } = .next t ∧ t.result ≠ .empty) := by
  exact ⟨⟨_, rfl, by decide⟩, _, rfl, by decide⟩

/-- A step of each kind that changes a byte: the host's write, the engine's command, and the soft reset that aborts a command. The
third changes the byte where the free choice of log 6 takes the new value, and nothing says that it does or does not. -/
theorem witness_OnlyNamedTurnsWriteTheBuffer :
    (∃ t, step { turns [w8 0x63D 0x5A] with buf := [(573, 1)] } = .next t ∧ t.buf.read 573 ≠ 1) ∧
    (∃ t, step { pending 0x10 with buf := [(0, 1)] } = .next t ∧ t.buf.read 0 ≠ 1) ∧
    (Config.abortTakesNew 0 0 = true →
      ∃ t, step { pending 0x10 with buf := [(0, 1)], agenda := [w32 0x004 1] } = .next t ∧ t.buf.read 0 ≠ 1) := by
  refine ⟨⟨_, rfl, by decide +kernel⟩, ⟨_, rfl, by decide +kernel⟩, fun hc => ⟨_, rfl, ?_⟩⟩
  rw [show (⟨0x004, 4, .write 1⟩ : Access) = ctrlWrite 1 from rfl, busAccess_ctrlWrite, if_pos (by decide), respond_buf, softReset_buf]
  simp only [bufferAfterReset, pending]
  rw [read_blend _ _ _ _ (by decide), State.reset, if_pos hc, bufferAfter_ok _ _ .frClear (by decide)]
  decide +kernel

/-- A state that is not the reset state, with the invariant, and its step. -/
theorem witness_EveryStepKeepsTheInvariant :
    ({ pending 0x023E0013 with buf := header 1, plen := 512 } : State).Inv ∧
    ∃ t, step { pending 0x023E0013 with buf := header 1, plen := 512 } = .next t := by
  exact ⟨by decide +kernel, _, rfl⟩

theorem witness_NeverStops : ({ pending 0x08F80003 with agenda := [w32 0x00C 0, .engine] } : State).Inv := by decide +kernel

/-- A state with the invariant; one whose host turns before the engine's, a read, a refused command and a `CTRL` write, reset
nothing; and one whose engine steps first. -/
theorem witness_AcceptedCommandsComplete :
    ({ pending 0x11 with agenda := [r32 0x008, w32 0x00C 1] } : State).Inv ∧
    ((pending 0x11).pend = some 0x11 ∧ decode 0x11 = .ok .frEncode ∧
      [r32 0x008, w32 0x00C 1, w32 0x004 2, .engine]
        = [⟨0x008, 4, .read⟩, cmdWrite 1, ctrlWrite 2].map Turn.host ++ [.engine] ∧
      engineIsNext [.engine] = true ∧
      ∀ v, ctrlWrite v ∈ [⟨0x008, 4, .read⟩, cmdWrite 1, ctrlWrite 2] → v.getLsbD 0 = false) ∧
    ((pending 0x11).agenda = [].map Turn.host ++ [] ∧ engineIsNext [] = true) := by
  refine ⟨by decide +kernel, ⟨rfl, by decide, rfl, rfl, fun v h => ?_⟩, rfl, rfl⟩
  simp only [ctrlWrite, cmdWrite, List.mem_cons, Access.mk.injEq, reduceCtorEq, BusOp.write.injEq, and_false, true_and,
    List.not_mem_nil, or_false, false_or] at h
  rcases h with ⟨h, -⟩ | h
  · exact absurd h (by decide)
  · rw [h]
    decide

end Sys2Proof.Tests
end

section
/-! The scope's statements (00_scope.md): `strnlen` (R10) and what one step of the machine is (R7). -/

namespace Sys2Proof.Machine

/-! ### The byte string length (R10) -/

/-- Settles O16, from the bound, the nonzero prefix and the zero that ends it. -/
theorem strnlenIsTheFirstZero : Obligations.StrnlenIsTheFirstZero := fun m off max =>
  ⟨strnlen_le m off max, strnlen_nonzero m off max, strnlen_stop m off max⟩

/-! ### Turns (R7) -/

/-- With a command pending, the engine's turn is that command. -/
theorem engineTurn_of_decode {s : State} {w : Word} {i : Instr} (hp : s.pend = some w) (hd : decode w = .ok i) :
    engineTurn s = exec i s := by
  simp only [engineTurn, hp, hd]

/-- With no command pending, the engine's turn changes nothing. -/
theorem engineTurn_of_idle {s : State} (hp : s.pend = none) : engineTurn s = .next s := by
  simp only [engineTurn, hp]

/-- Where the engine steps next, whether by a turn of its own or because no turn is left, the step is the engine's turn on the
state less the turn taken. -/
theorem step_of_engineIsNext {s : State} (h : engineIsNext s.agenda = true) :
    step s = engineTurn { s with agenda := s.agenda.tail } :=
  match s, h with
  | { agenda := [], .. }, _ => rfl
  | { agenda := .engine :: _, .. }, _ => rfl

/-- Where a host turn stands first, the step is its access. -/
theorem step_of_host {s : State} {a : Access} {rest : List Turn} (h : s.agenda = .host a :: rest) :
    step s = .next (busAccess a { s with agenda := rest }) := by
  simp only [step, takeTurn, h]

/-- Settles O53: the engine's turn by what `PEND` holds, and the host's. -/
theorem stepRunsThePendingCommand : Obligations.StepRunsThePendingCommand := by
  refine ⟨fun s w i hnext hp hd => ?_, fun s hnext hp => ?_, fun s a rest => step_of_host⟩
  · rw [step_of_engineIsNext hnext]
    exact engineTurn_of_decode hp hd
  · rw [step_of_engineIsNext hnext]
    exact engineTurn_of_idle hp

end Sys2Proof.Machine
end

section
/-! The state's statements (10_state.md): what a step may change of the result and the buffer, the invariant, the `STATUS` word,
what reads of the registers return and which writes they ignore. -/

namespace Sys2Proof.Machine

/-! ### The four outcomes of an access -/

@[simp] theorem raise_lessErrors (s : State) (e : ErrorBit) : (s.raise e).lessErrors = s.lessErrors := by cases e <;> rfl
@[simp] theorem clearErrors_lessErrors (s : State) (v : Word) : (s.clearErrors v).lessErrors = s.lessErrors := rfl
@[simp] theorem respond_lessErrors (s : State) (d : Option Word) (e : Bool) : (s.respond d e).lessErrors = s.lessErrors := rfl

/-- What an access does to the block, said once with the access it takes: nothing but error bits, response and draw count; the
store of an idle frame-window write; a command accepted; a soft reset. -/
theorem busAccess_outcomes (a : Access) (s : State) :
    (∃ d, (busAccess a s).lessErrors = State.lessErrors { s with draws := d }) ∨
    (s.pend = none ∧ ∃ off n v k, a = ⟨off, n, .write v⟩ ∧ off.toNat = 0x400 + k ∧ k < 0x400 ∧
      busAccess a s = State.respond { s with buf := memWrite s.buf k n v } none false) ∨
    (s.pend = none ∧ ∃ w i, a = cmdWrite w ∧ decode w = .ok i ∧ i.wf = true ∧
      busAccess a s = State.respond { s with pend := some w } none false) ∨
    (∃ v, a = ctrlWrite v ∧ v.getLsbD 0 = true ∧ busAccess a s = s.softReset.respond none false) := by
  rcases busAccess_cases a s with ⟨-, d, h⟩ | ⟨-, -, h⟩ | ⟨hl, v, hv, h⟩
  · exact .inl ⟨s.draws, by rw [h, respond_lessErrors, raise_lessErrors]⟩
  · exact .inl ⟨s.draws + 1, by rw [h, respond_lessErrors]⟩
  · rcases performWrite_cases s a.size v (targetAt a.offset) with
      ⟨e, hw⟩ | ⟨hp, k, ht, hw⟩ | ⟨hp, ht, ⟨i, hd, hi⟩, hw⟩ | ⟨ht, hv0, hw⟩ | ⟨-, hw⟩ | hw <;> rw [hw] at h
    · exact .inl ⟨s.draws, by rw [h, respond_lessErrors, raise_lessErrors]⟩
    · obtain ⟨hlo, hhi, hk⟩ := targetAt_frame_eq _ _ ht
      obtain ⟨off, n, op⟩ := a
      subst hv
      dsimp only at hlo hhi hk
      exact .inr (.inl ⟨hp, off, n, v, k, rfl, by omega, by omega, h⟩)
    · exact .inr (.inr (.inl ⟨hp, v, i, eq_regWrite a v .cmd hl hv ht, hd, hi, h⟩))
    · exact .inr (.inr (.inr ⟨v, eq_ctrlWrite a v hl hv ht, hv0, h⟩))
    · exact .inl ⟨s.draws, by rw [h, respond_lessErrors, clearErrors_lessErrors]⟩
    · exact .inl ⟨s.draws, by rw [h, respond_lessErrors]⟩

/-! ### `SHORT`, `LONG` and `RESULT` (R27, R28) -/

/-- Two states with the same `SHORT`, `LONG` and `RESULT`. -/
def SameResult (s t : State) : Prop := t.short = s.short ∧ t.long = s.long ∧ t.result = s.result

/-- An access that changes only errors, response and draw count changes none of the three. -/
theorem sameResult_of_lessErrors {s t : State} {d : Nat} (h : t.lessErrors = State.lessErrors { s with draws := d }) :
    SameResult s t := by
  have hshort := congrArg State.short h
  have hlong := congrArg State.long h
  have hresult := congrArg State.result h
  exact ⟨hshort, hlong, hresult⟩

/-- `SHORT` and `LONG` agree with each other and with `RESULT`: the part of the invariant about them. -/
def ResultAgrees (s : State) : Prop :=
  (s.short && s.long) = false ∧ (s.result = .none ∨ s.result = .empty → s.short = false ∧ s.long = false)

theorem ResultAgrees.of_sameResult {s t : State} (h : SameResult s t) (hs : ResultAgrees s) : ResultAgrees t := by
  obtain ⟨hshort, hlong, hresult⟩ := h
  rwa [ResultAgrees, hshort, hlong, hresult]

/-- The checks of `FR.DECODE` touch neither length flag nor the buffer, and leave a code that is neither `NONE` nor `EMPTY`. -/
theorem validate_frame (zs : Bool) (s : State) :
    (s.validate zs).short = s.short ∧ (s.validate zs).long = s.long ∧ (s.validate zs).buf = s.buf ∧
      (s.validate zs).result ≠ .none ∧ (s.validate zs).result ≠ .empty := by
  rcases validate_cases zs s with ⟨-, h⟩ | ⟨ok, hok, h⟩ <;> rw [h]
  · simp
  · obtain ⟨hnone, hempty⟩ := okCode_ne _ _ hok
    refine ⟨rfl, rfl, rfl, ?_, ?_⟩
    · dsimp only
      split
      exacts [hnone, by decide]
    · dsimp only
      split
      exacts [hempty, by decide]

/-- Whatever stood in them before, `FR.DECODE` leaves the flags and the result in agreement. -/
theorem decodeFrame_resultAgrees (zs : Bool) (n : Nat) (s : State) : ResultAgrees (s.decodeFrame zs n) := by
  unfold State.decodeFrame
  split
  · exact ⟨rfl, fun _ => ⟨rfl, rfl⟩⟩
  · obtain ⟨hshort, hlong, -, hnone, hempty⟩ := validate_frame zs
      { s with short := decide (n < Config.frameSize), long := decide (Config.frameSize < n), buf := zeroFill n s.buf }
    refine ⟨?_, fun h => (h.elim hnone hempty).elim⟩
    rw [hshort, hlong]
    simp only [Bool.and_eq_false_iff, decide_eq_false_iff_not]
    omega

/-- Every command but `FR.DECODE` leaves the flags and the result alone. -/
theorem performed_sameResult (i : Instr) (s : State) (h : ∀ n, i ≠ .frDecode n) : SameResult s (performed i s) := by
  cases i with
  | frDecode n => exact absurd rfl (h n)
  | ckSpan start len =>
    simp only [performed]
    split <;> exact ⟨rfl, rfl, rfl⟩
  | nop => exact ⟨rfl, rfl, rfl⟩
  | ckInit => exact ⟨rfl, rfl, rfl⟩
  | ckFeed byte => exact ⟨rfl, rfl, rfl⟩
  | frClear => exact ⟨rfl, rfl, rfl⟩
  | frEncode => exact ⟨encodeFrame_short _ s, encodeFrame_long _ s, encodeFrame_result _ s⟩
  | frSeal => exact ⟨seal_short _ s, seal_long _ s, seal_result _ s⟩

theorem performed_resultAgrees (i : Instr) (s : State) (h : ResultAgrees s) : ResultAgrees (performed i s) := by
  by_cases hi : ∃ n, i = .frDecode n
  · obtain ⟨n, rfl⟩ := hi
    exact decodeFrame_resultAgrees _ _ s
  · exact h.of_sameResult (performed_sameResult i s fun n hn => hi ⟨n, hn⟩)

/-- No access but a soft reset touches the flags or the result. -/
theorem busAccess_sameResult (a : Access) (s : State) :
    SameResult s (busAccess a s) ∨
      (∃ v, a = ctrlWrite v ∧ v.getLsbD 0 = true ∧ busAccess a s = s.softReset.respond none false) := by
  rcases busAccess_outcomes a s with ⟨d, h⟩ | ⟨-, off, n, v, k, -, -, -, h⟩ | ⟨-, w, i, -, -, -, h⟩ | h
  · exact .inl (sameResult_of_lessErrors h)
  · exact .inl (by rw [h]; exact ⟨rfl, rfl, rfl⟩)
  · exact .inl (by rw [h]; exact ⟨rfl, rfl, rfl⟩)
  · exact .inr h

/-- Settles O55: of the engine's commands only `FR.DECODE`, of the host's accesses only a soft reset touches them. -/
theorem onlyDecodeAndResetWriteTheResult : Obligations.OnlyDecodeAndResetWriteTheResult := by
  intro s t hstep hne
  have changed : ¬ SameResult s t := by
    rintro ⟨hshort, hlong, hresult⟩
    rcases hne with h | h | h
    exacts [h hshort, h hlong, h hresult]
  rcases step_cases s t hstep with ⟨-, -, rfl⟩ | ⟨hnext, w, i, hp, hd, rfl⟩ | ⟨a, rest, ha, rfl⟩
  · exact absurd ⟨rfl, rfl, rfl⟩ changed
  · by_cases hi : ∃ n, i = .frDecode n
    · obtain ⟨n, rfl⟩ := hi
      exact .inl ⟨hnext, w, n, hp, hd⟩
    · exact absurd (performed_sameResult i { s with agenda := s.agenda.tail } fun n hn => hi ⟨n, hn⟩) changed
  · rcases busAccess_sameResult a { s with agenda := rest } with h | ⟨v, rfl, hv, -⟩
    · exact absurd h changed
    · exact .inr ⟨v, rest, ha, hv⟩

/-! ### The invariant (R27, R28, R36, R41) -/

/-- A command performed to its completion keeps the invariant. -/
theorem performed_complete_inv (i : Instr) (s : State) (h : s.Inv) : (performed i s).complete.Inv := by
  obtain ⟨hbuf, hplen, -, hresult⟩ := h
  exact ⟨performed_wf i s hbuf, performed_plen i s hplen, rfl, performed_resultAgrees i s hresult⟩

/-- Every access keeps the invariant. -/
theorem busAccess_inv (a : Access) (s : State) (h : s.Inv) : (busAccess a s).Inv := by
  obtain ⟨hbuf, hplen, hpend, hresult⟩ := h
  refine ⟨busAccess_wf a s hbuf, ?_⟩
  rcases busAccess_outcomes a s with ⟨d, h⟩ | ⟨-, off, n, v, k, -, -, -, h⟩ | ⟨-, w, i, -, hd, hwf, h⟩ | ⟨v, -, -, h⟩
  · have eplen := congrArg State.plen h
    have epend := congrArg State.pend h
    simp only [lessErrors_plen, lessErrors_pend] at eplen epend
    refine ⟨by rwa [eplen], ?_, ResultAgrees.of_sameResult (sameResult_of_lessErrors h) hresult⟩
    rwa [State.pendingAccepted, epend]
  · rw [h]
    exact ⟨hplen, hpend, hresult⟩
  · rw [h]
    refine ⟨hplen, ?_, hresult⟩
    simp only [State.pendingAccepted, respond_pend, hd, hwf]
  · rw [h]
    exact ⟨Nat.zero_le _, rfl, rfl, fun _ => ⟨rfl, rfl⟩⟩

/-- Settles O58, by the turn taken: the idle engine's, the engine's command, the host's access. -/
theorem everyStepKeepsTheInvariant : Obligations.EveryStepKeepsTheInvariant := by
  intro s t hinv hstep
  rcases step_cases s t hstep with ⟨-, -, rfl⟩ | ⟨-, w, i, -, -, rfl⟩ | ⟨a, rest, -, rfl⟩
  · exact hinv
  · exact performed_complete_inv i _ hinv
  · exact busAccess_inv a _ hinv

/-! ### The frame buffer (R40) -/

/-- Writing no byte leaves the buffer as it is. -/
@[simp] theorem put_nil (m : Memory) (start : Nat) : m.put start [] = m := if_pos rfl

/-- A zero fill from the buffer's end on fills nothing. -/
theorem zeroFill_of_le (n : Nat) (m : Memory) (h : Config.frameSize ≤ n) : zeroFill n m = m := by
  rw [zeroFill, Nat.sub_eq_zero_of_le h]
  exact put_nil m n

/-- A write to the frame window's tail stores nothing. -/
theorem memWrite_tail (m : Memory) (off n : Nat) (v : Word) (h : Config.frameSize ≤ off) : memWrite m off n v = m := by
  rw [memWrite, Nat.sub_eq_zero_of_le h, List.take_zero, put_nil]

/-- The commands that write bytes of the buffer (R40). -/
def WritesBuffer (i : Instr) : Prop :=
  i = .frClear ∨ i = .frEncode ∨ i = .frSeal ∨ ∃ n : BitVec 16, i = .frDecode n ∧ n ≠ 0 ∧ n.toNat < 574

/-- The buffer `FR.DECODE` leaves: the zero fill's, but for an empty reception. -/
theorem decodeFrame_buf (zs : Bool) (n : Nat) (s : State) :
    (s.decodeFrame zs n).buf = if n = 0 then s.buf else zeroFill n s.buf := by
  unfold State.decodeFrame
  split
  · rfl
  · obtain ⟨-, -, hbuf, -⟩ := validate_frame zs
      { s with short := decide (n < Config.frameSize), long := decide (Config.frameSize < n), buf := zeroFill n s.buf }
    exact hbuf

/-- Every other command leaves the buffer as it is. -/
theorem performed_buf (i : Instr) (s : State) (h : ¬ WritesBuffer i) : (performed i s).buf = s.buf := by
  cases i with
  | frDecode n =>
    have hn : n.toNat = 0 ∨ 574 ≤ n.toNat := by
      by_contra hc
      exact h (.inr (.inr (.inr ⟨n, rfl, by rintro rfl; simp at hc, by omega⟩)))
    rw [performed, decodeFrame_buf]
    split
    · rfl
    · exact zeroFill_of_le _ _ (by have := layout; omega)
  | frClear => exact absurd (.inl rfl) h
  | frEncode => exact absurd (.inr (.inl rfl)) h
  | frSeal => exact absurd (.inr (.inr (.inl rfl))) h
  | ckSpan start len =>
    simp only [performed]
    split <;> rfl
  | nop => rfl
  | ckInit => rfl
  | ckFeed byte => rfl

/-- A byte a soft reset changes is one of a pending command that writes the buffer (R273). -/
theorem bufferAfterReset_changes (s : State) (a : Nat) (ha : a < Config.frameSize)
    (h : (bufferAfterReset s).read a ≠ s.buf.read a) :
    ∃ w i, s.pend = some w ∧ decode w = .ok i ∧ WritesBuffer i := by
  unfold bufferAfterReset at h
  cases hp : s.pend with
  | none => exact absurd (by rw [hp]) h
  | some w =>
    have hnew : (bufferAfter s w).read a ≠ s.buf.read a := by
      intro heq
      simp only [hp, read_blend _ _ _ _ ha, heq, ite_self, ne_eq, not_true] at h
    cases hd : decode w with
    | error e => exact absurd (by simp only [bufferAfter, hd]) hnew
    | ok i =>
      refine ⟨w, i, rfl, hd, ?_⟩
      by_contra hi
      rw [bufferAfter_ok s w i hd, performed_buf i s hi] at hnew
      exact hnew rfl

/-- Settles O56, by the turn taken: a command that writes the buffer, or an access that stores into the frame window or resets. -/
theorem onlyNamedTurnsWriteTheBuffer : Obligations.OnlyNamedTurnsWriteTheBuffer := by
  intro s t k hk hstep hne
  rcases step_cases s t hstep with ⟨-, -, rfl⟩ | ⟨hnext, w, i, hp, hd, rfl⟩ | ⟨a, rest, ha, rfl⟩
  · exact absurd rfl hne
  · refine .inr ⟨w, i, hp, hd, ?_, .inl hnext⟩
    by_contra hi
    exact hne (congrArg (Memory.read · k) (performed_buf i { s with agenda := s.agenda.tail } hi))
  · rcases busAccess_outcomes a { s with agenda := rest } with
      ⟨d, h⟩ | ⟨hp, off, n, v, j, rfl, hoff, hj, h⟩ | ⟨-, w, i, -, -, -, h⟩ | ⟨v, rfl, hv, h⟩
    · exact absurd (congrArg (fun u : State => u.buf.read k) h) hne
    · rw [h, respond_buf, read_memWrite] at hne
      have hcovers : j ≤ k ∧ k < j + n := by
        by_contra hc
        exact hne (if_neg (by omega))
      exact .inl ⟨hp, off, n, v, rest, ha, by omega, by omega, by omega, by omega⟩
    · exact absurd (by rw [h]; rfl) hne
    · rw [h, respond_buf, softReset_buf] at hne
      obtain ⟨w, i, hp, hd, hi⟩ := bufferAfterReset_changes _ k hk hne
      exact .inr ⟨w, i, hp, hd, hi, .inr ⟨v, rest, ha, hv⟩⟩

/-! ### The `STATUS` word (R24, R25) -/

theorem flagAt_getLsbD (b : Bool) (k i : Nat) (hk : k < 32) : (flagAt b k).getLsbD i = (decide (i = k) && b) := by
  rw [flagAt, BitVec.getLsbD_shiftLeft, BitVec.getLsbD_setWidth, BitVec.getLsbD_ofBool]
  by_cases h : i = k
  · simp [h, hk]
  · have hsub : i < k ∨ i - k ≠ 0 := by omega
    rcases hsub with hlt | hne <;> simp [*]

/-- Each bit of the `STATUS` word: one of the eight flags at its position, or a bit of the result's number. -/
theorem statusWord_getLsbD (s : State) (i : Nat) :
    (statusWord s).getLsbD i =
      (decide (i = 0) && s.busy || decide (i = 1) && s.eng.term || decide (i = 2) && s.short || decide (i = 3) && s.long ||
        decide (4 ≤ i) && s.result.code.getLsbD (i - 4) ||
        decide (i = 8) && s.errCmd || decide (i = 9) && s.errRange || decide (i = 10) && s.errBusy ||
        decide (i = 11) && s.errBus) := by
  have hcode : (s.result.code.setWidth 32 <<< 4).getLsbD i = (decide (4 ≤ i) && s.result.code.getLsbD (i - 4)) := by
    rw [BitVec.getLsbD_shiftLeft, BitVec.getLsbD_setWidth]
    by_cases hlow : i < 4
    · simp [hlow, Nat.not_le.mpr hlow]
    · by_cases hhigh : i < 32
      · simp [hlow, hhigh, Nat.not_lt.mp hlow, show i - 4 < 32 by omega]
      · simp [hhigh, BitVec.getLsbD_of_ge s.result.code (i - 4) (by omega)]
  simp (disch := decide) only [statusWord, BitVec.getLsbD_or, flagAt_getLsbD, hcode]

/-- Bits 7:4 are the result's number. -/
theorem statusWord_result (s : State) : (statusWord s).extractLsb' 4 4 = s.result.code := by
  apply BitVec.eq_of_getLsbD_eq
  intro i hi
  rw [BitVec.getLsbD_extractLsb', statusWord_getLsbD]
  interval_cases i <;> simp

/-- Bits 31:12 are zero. -/
theorem statusWord_high (s : State) : (statusWord s).extractLsb' 12 20 = 0 := by
  apply BitVec.eq_of_getLsbD_eq
  intro i hi
  rw [BitVec.getLsbD_extractLsb', statusWord_getLsbD, BitVec.getLsbD_of_ge s.result.code (12 + i - 4) (by omega)]
  have hne : ∀ k < 12, decide (12 + i = k) = false := fun k hk => decide_eq_false (by omega)
  simp (disch := decide) only [hne, Bool.false_and, Bool.and_false, Bool.or_false]
  exact BitVec.getLsbD_zero.symm

theorem statusWord_busy (s : State) : (statusWord s).getLsbD 0 = s.busy := by
  rw [statusWord_getLsbD]
  simp

/-- Settles O35: the flags by their bit of the word, `RESULT` by its field and the number of each code. -/
theorem statusWordFields : Obligations.StatusWordFields := by
  intro s
  refine ⟨statusWord_busy s, ?_, ?_, ?_, ?result, ?_, ?_, ?_, ?_, statusWord_high s⟩
  case result =>
    rw [statusWord_result]
    cases s.result <;> rfl
  all_goals rw [statusWord_getLsbD]; simp

/-- A word accepted while idle is pending. -/
theorem issue_accepted (s : State) (w : Word) (i : Instr) (hp : s.pend = none) (hd : decode w = .ok i)
    (hwf : i.wf = true) : issue w s = { s with pend := some w } := by
  simp [issue, (busy_eq_false_iff s).mpr hp, hd, hwf]

/-- Settles O54: `BUSY` is bit 0 of `STATUS`, set where a word is accepted, 0 after a command's completion and a reset. -/
theorem busyFollowsThePendingCommand : Obligations.BusyFollowsThePendingCommand := by
  refine ⟨fun s => ?_, fun s w i hp hd hwf => ?_, fun i s => ?_, fun s v hv => ?_, rfl⟩
  · rw [statusWord_busy, busy_eq_true_iff]
  · rw [busAccess_cmdWrite, issue_accepted s w i hp hd hwf]
    rfl
  · exact ⟨_, exec_eq_performed i s, complete_busy _⟩
  · rw [busAccess_ctrlWrite, if_pos hv, respond_busy, softReset_busy]

/-! ### Reads while no command is pending (R20, R224, R38) -/

/-- A word of the frame window's tail reads 0. -/
theorem memRead_tail (m : Memory) (off : Nat) (h : Config.frameSize ≤ off) : memRead m off 4 = 0 := by
  apply word_eq_of_bytes
  intro k hk
  rw [memRead_byte m off 4 k hk hk, windowByte, if_neg (by omega)]
  simp

/-- While no command is pending a legal 32-bit read returns the exact value of what stands at its offset. -/
theorem readsAs_readValue {s : State} {off : Offset} (hp : s.pend = none) (hl : Access.legal ⟨off, 4, .read⟩ = true) :
    ReadsAs s off (readValue s 4 (targetAt off)) := by
  have hexact : readData s 4 (targetAt off) = readValue s 4 (targetAt off) :=
    if_neg (by simp [(busy_eq_false_iff s).mpr hp])
  rw [ReadsAs, busAccess_legal _ _ hl, ← hexact]
  rfl

/-- A 32-bit access at a multiple of 4 is legal everywhere in the window. -/
theorem legal_of_aligned (off : Offset) (op : BusOp) (h : off.toNat % 4 = 0) : Access.legal ⟨off, 4, op⟩ = true := by
  unfold Access.legal
  split <;> simp [h]

/-- A register's read. -/
theorem readsAs_reg {s : State} {off : Offset} (r : Reg) (hp : s.pend = none) (h4 : off.toNat % 4 = 0)
    (ht : targetAt off = .reg r) : ReadsAs s off (regValue s r) := by
  have h := readsAs_readValue hp (legal_of_aligned off .read h4)
  rwa [ht] at h

/-- Settles O34: each register by its offset; the reserved offsets and the tail by where they lead. -/
theorem registerReadsReturnTheirValues : Obligations.RegisterReadsReturnTheirValues := by
  intro s hp
  refine ⟨readsAs_reg .id hp rfl targetAt_id, readsAs_reg .ctrl hp rfl targetAt_ctrl,
    readsAs_reg .status hp rfl targetAt_status, readsAs_reg .cmd hp rfl targetAt_cmd,
    readsAs_reg .acc hp rfl targetAt_acc, readsAs_reg .digest hp rfl targetAt_digest,
    readsAs_reg .cnt hp rfl targetAt_cnt, readsAs_reg .calcReg hp rfl targetAt_calcReg,
    readsAs_reg .rxfcs hp rfl targetAt_rxfcs, readsAs_reg .plen hp rfl targetAt_plen,
    readsAs_reg .param hp rfl targetAt_param, fun off h4 hrange => ?_⟩
  have h := readsAs_readValue hp (legal_of_aligned off .read h4)
  by_cases hframe : 0x400 ≤ off.toNat ∧ off.toNat < 0x800
  · rw [targetAt_frame off hframe.1 hframe.2] at h
    rwa [readValue, memRead_tail s.buf _ (by have := layout; omega)] at h
  · rwa [targetAt_reserved off (by omega)] at h

/-! ### Writes that are ignored (R38, R39) -/

/-- A write that changes nothing gets the normal answer and no error. -/
theorem busAccess_ignored {s : State} {off : Offset} {n : Nat} {v : Word} (hl : Access.legal ⟨off, n, .write v⟩ = true)
    (h : performWrite s n v (targetAt off) = s) :
    busAccess ⟨off, n, .write v⟩ s = { s with resp := some ⟨none, false⟩ } := by
  rw [busAccess_legal _ _ hl, legalAccess]
  dsimp only
  rw [h]
  rfl

/-- A write to a register other than the three that act. -/
theorem busAccess_readOnly {s : State} {off : Offset} {v : Word} (r : Reg) (h4 : off.toNat % 4 = 0)
    (ht : targetAt off = .reg r) (hr : r ≠ .ctrl ∧ r ≠ .status ∧ r ≠ .cmd) :
    busAccess ⟨off, 4, .write v⟩ s = { s with resp := some ⟨none, false⟩ } := by
  refine busAccess_ignored (legal_of_aligned off _ h4) ?_
  rw [ht]
  obtain ⟨hctrl, hstatus, hcmd⟩ := hr
  cases r with
  | ctrl => exact absurd rfl hctrl
  | status => exact absurd rfl hstatus
  | cmd => exact absurd rfl hcmd
  | id | acc | digest | cnt | calcReg | rxfcs | plen | param => rfl

/-- A `STATUS` write with no 1 at an error bit clears nothing. -/
theorem clearErrors_eq_self (s : State) (v : Word) (h : v.extractLsb' 8 4 = 0) : s.clearErrors v = s := by
  have hbit : ∀ k < 4, v.getLsbD (8 + k) = false := fun k hk => by
    simpa [hk] using congrArg (fun b => b.getLsbD k) h
  simp only [State.clearErrors, hbit 0 (by decide), hbit 1 (by decide), hbit 2 (by decide), hbit 3 (by decide),
    Bool.not_false, Bool.and_true]

/-- Settles O41: where each offset leads, a write there leaves the state. -/
theorem readOnlyAndReservedIgnoreWrites : Obligations.ReadOnlyAndReservedIgnoreWrites := by
  refine ⟨fun s v off hoff => ?_, fun s v off h4 hrange => ?_, fun s v off n hp hlo hhi hl => ?_, fun s v hv => ?_,
    fun s v hv => ?_⟩
  · fin_cases hoff
    · exact busAccess_readOnly .id rfl targetAt_id (by decide)
    · exact busAccess_readOnly .acc rfl targetAt_acc (by decide)
    · exact busAccess_readOnly .digest rfl targetAt_digest (by decide)
    · exact busAccess_readOnly .cnt rfl targetAt_cnt (by decide)
    · exact busAccess_readOnly .calcReg rfl targetAt_calcReg (by decide)
    · exact busAccess_readOnly .rxfcs rfl targetAt_rxfcs (by decide)
    · exact busAccess_readOnly .plen rfl targetAt_plen (by decide)
    · exact busAccess_readOnly .param rfl targetAt_param (by decide)
  · exact busAccess_ignored (legal_of_aligned off _ h4) (by rw [targetAt_reserved off hrange, performWrite])
  · refine busAccess_ignored hl ?_
    rw [targetAt_frame off (by omega) hhi, performWrite, if_neg (by simp [(busy_eq_false_iff s).mpr hp]),
      memWrite_tail s.buf _ n v (by have := layout; omega)]
  · rw [busAccess_ctrlWrite, hv]
    rfl
  · rw [busAccess_statusWrite, clearErrors_eq_self s v hv]
    rfl

end Sys2Proof.Machine
end

section
/-! The memory's statements (20_memory.md): the legal accesses and what an illegal one answers, reads, reads and writes of the
frame window, and what an access can change while a command is pending. -/

namespace Sys2Proof.Machine

/-! ### The legal accesses (R64, R65) -/

/-- Inside the frame window one, two and four bytes are legal, each at its own alignment. -/
theorem legal_inside (a : Access) (hlo : 0x400 ≤ a.offset.toNat) (hhi : a.offset.toNat < 0x800) :
    a.legal = true ↔ a.size = 1 ∨ (a.size = 2 ∧ a.offset.toNat % 2 = 0) ∨ (a.size = 4 ∧ a.offset.toNat % 4 = 0) := by
  rw [Access.legal, if_pos ((inFrameWindow_iff a.offset).mpr ⟨hlo, hhi⟩)]
  simp only [Bool.or_eq_true, Bool.and_eq_true, beq_iff_eq, or_assoc]

/-- Settles O36, by whether the offset lies in the frame window. -/
theorem legalAccesses : Obligations.LegalAccesses := by
  intro a
  by_cases hwin : 0x400 ≤ a.offset.toNat ∧ a.offset.toNat < 0x800
  · obtain ⟨hlo, hhi⟩ := hwin
    rw [legal_inside a hlo hhi]
    omega
  · rw [legal_outside a.offset a.size a.op (by omega), Bool.and_eq_true, beq_iff_eq, beq_iff_eq]
    omega

/-- Settles O37: the access answers an error and raises `ERR_BUS`, whatever the state. -/
theorem illegalAccessesAreNotPerformed : Obligations.IllegalAccessesAreNotPerformed := by
  rintro ⟨off, n, op⟩ s hl
  rw [busAccess_illegal _ s hl]
  constructor
  · rintro rfl
    rfl
  · rintro v rfl
    rfl

/-! ### Reads (R62, R66, R68) -/

/-- What a legal read does, at any time: the answer and the draw, nothing else. -/
theorem busAccess_legalRead {s : State} {off : Offset} {n : Nat} (hl : Access.legal ⟨off, n, .read⟩ = true) :
    busAccess ⟨off, n, .read⟩ s
      = { s with resp := some ⟨some (readData s n (targetAt off)), false⟩, draws := s.draws + 1 } :=
  busAccess_legal _ s hl

/-- Settles O40, since a legal read touches only the two fields put back. -/
theorem readsChangeNoState : Obligations.ReadsChangeNoState := by
  intro s off n hl
  rw [busAccess_legalRead hl]

/-- While no command is pending, the data of a read are exact. -/
theorem readData_idle {s : State} (hp : s.pend = none) (n : Nat) (t : Target) : readData s n t = readValue s n t :=
  if_neg (by simp [(busy_eq_false_iff s).mpr hp])

/-- Settles O39: the data are the little-endian value of the window's bytes. -/
theorem frameWindowReadReturnsItsBytes : Obligations.FrameWindowReadReturnsItsBytes := by
  intro s off n hp hlo hhi hl
  refine ⟨memRead s.buf (off.toNat - 0x400) n, ?_, fun k hk => ?_, memRead_high _ _ n⟩
  · rw [busAccess_legalRead hl, readData_idle hp, targetAt_frame off hlo hhi, readValue]
  · have hn := legal_frame_size off n .read hl
    exact memRead_byte s.buf _ n k hk (by omega)

/-! ### Writes of the frame window (R62, R66) -/

/-- What a legal write does: the write's own effect, and the normal answer. -/
theorem busAccess_legalWrite {s : State} {off : Offset} {n : Nat} {v : Word}
    (hl : Access.legal ⟨off, n, .write v⟩ = true) :
    busAccess ⟨off, n, .write v⟩ s = (performWrite s n v (targetAt off)).respond none false :=
  busAccess_legal _ s hl

/-- While no command is pending, a write to the frame window is a store into the buffer. -/
theorem performWrite_frame_idle {s : State} (hp : s.pend = none) (n k : Nat) (v : Word) :
    performWrite s n v (.frame k) = { s with buf := memWrite s.buf k n v } :=
  if_neg (by simp [(busy_eq_false_iff s).mpr hp])

/-- Settles O38: each byte of the stored buffer, covered by the write or not. -/
theorem frameWindowWriteStoresItsBytes : Obligations.FrameWindowWriteStoresItsBytes := by
  intro s off n v hp hlo hhi hl
  have hsize := layout
  refine ⟨memWrite s.buf (off.toNat - 0x400) n v, ?store, fun k hk hin => ?covered, fun a hout => ?outside⟩
  case store =>
    rw [busAccess_legalWrite hl, targetAt_frame off hlo hhi, performWrite_frame_idle hp, State.respond]
  case covered =>
    rw [read_memWrite, if_pos (by omega), Nat.add_sub_cancel_left]
  case outside =>
    rw [read_memWrite, if_neg (by omega)]

/-! ### Accesses while a command is pending (R74) -/

/-- Settles O52: of the four outcomes of an access, the store and the acceptance need an idle block, and the reset is excluded. -/
theorem pendingCommandCannotBeChanged : Obligations.PendingCommandCannotBeChanged := by
  intro s a hbusy hnoReset
  obtain ⟨w, hpend⟩ := (busy_eq_true_iff s).mp hbusy
  have hnotIdle : s.pend ≠ none := by simp [hpend]
  rcases busAccess_outcomes a s with ⟨d, h⟩ | ⟨hidle, -⟩ | ⟨hidle, -⟩ | ⟨v, rfl, hv, -⟩
  · rw [h]
    rfl
  · exact absurd hidle hnotIdle
  · exact absurd hidle hnotIdle
  · exact absurd ((hnoReset v rfl).symm.trans hv) Bool.false_ne_true

end Sys2Proof.Machine
end

section
/-! The encodings' statements (30_encoding.md, part A): the opcode map and its illegal words, the formats, the round trips between
commands and words, the assembler, and the issue of a command word. -/

namespace Sys2Proof

/-! ### The rows of the opcode map (R93) -/

/-- Every mask covers the opcode byte, so a selected word has its row's opcode. -/
theorem fieldOp_of_selects {r : OpcodeRow} {w : Word} (hr : r ∈ opcodeMap) (h : r.selects w = true) :
    fieldOp w = fieldOp r.matchWord := by
  have hmask : ∀ r ∈ opcodeMap, fieldOp r.mask = BitVec.allOnes 8 := by decide
  rw [OpcodeRow.selects, beq_iff_eq] at h
  rw [← h, fieldOp, fieldOp, BitVec.extractLsb'_and, ← fieldOp, ← fieldOp, hmask r hr, BitVec.and_allOnes]

/-- At most one row matches any word: the eight opcodes are distinct. -/
theorem row_unique {r r' : OpcodeRow} {w : Word} (hr : r ∈ opcodeMap) (hr' : r' ∈ opcodeMap) (h : r.selects w = true)
    (h' : r'.selects w = true) : r = r' := by
  have hdistinct : (opcodeMap.map fun r => fieldOp r.matchWord).Nodup := by decide
  exact List.inj_on_of_nodup_map hdistinct hr hr' ((fieldOp_of_selects hr h).symm.trans (fieldOp_of_selects hr' h'))

/-- A word decodes to the command that its row builds. -/
theorem decode_eq_ok_iff_row (w : Word) (i : Instr) :
    decode w = .ok i ↔ ∃ r ∈ opcodeMap, r.selects w = true ∧ i = r.build w := by
  unfold decode
  cases hfind : opcodeMap.find? fun r => r.selects w with
  | none =>
    rw [List.find?_eq_none] at hfind
    simp only [reduceCtorEq, false_iff]
    rintro ⟨r, hr, hsel, -⟩
    exact hfind r hr hsel
  | some r =>
    have hr := List.mem_of_find?_eq_some hfind
    have hsel := List.find?_some hfind
    simp only [Except.ok.injEq]
    constructor
    · exact fun hbuild => ⟨r, hr, hsel, hbuild.symm⟩
    · rintro ⟨r', hr', hsel', rfl⟩
      rw [row_unique hr hr' hsel hsel']

/-- Settles O3: the command of a word by its row, and the rows' distinct opcodes. -/
theorem opcodeMapSelectsByMatchAndMask : Obligations.OpcodeMapSelectsByMatchAndMask := by
  intro w
  simp only [decode_eq_ok_iff_row]
  refine ⟨?_, ?_, ?_, ?_, ?_, ?_, ?_, ?_, fun r hr r' hr' h h' => by rw [row_unique hr hr' h h']⟩
  all_goals simp [opcodeMap, OpcodeRow.selects, fieldByte, fieldStart, fieldLen, fieldRxlen]

/-! ### The formats as numbers (R91, R92) -/

theorem extract_toNat (w : Word) (start len : Nat) :
    (w.extractLsb' start len).toNat = w.toNat / 2 ^ start % 2 ^ len := by
  rw [BitVec.extractLsb'_toNat, Nat.shiftRight_eq_div_pow]

/-- A field put above the bits of `low` adds to it. -/
theorem shiftLeft_or_toNat {n k : Nat} (hk : n + k ≤ 32) (a : BitVec n) (low : Word) (hlow : low.toNat < 2 ^ k) :
    (a.setWidth 32 <<< k ||| low).toNat = a.toNat * 2 ^ k + low.toNat := by
  have hshift : (a.setWidth 32 <<< k).toNat = a.toNat <<< k := by
    have hfit : a.toNat * 2 ^ k < 2 ^ 32 := calc
      a.toNat * 2 ^ k < 2 ^ n * 2 ^ k := Nat.mul_lt_mul_of_pos_right a.isLt (Nat.two_pow_pos k)
      _ = 2 ^ (n + k) := (Nat.pow_add 2 n k).symm
      _ ≤ 2 ^ 32 := Nat.pow_le_pow_right (by decide) hk
    rw [BitVec.toNat_shiftLeft, BitVec.toNat_setWidth_of_le (by omega), Nat.shiftLeft_eq, Nat.mod_eq_of_lt hfit]
  rw [BitVec.toNat_or, hshift, ← Nat.shiftLeft_add_eq_or_of_lt hlow, Nat.shiftLeft_eq]

theorem formatN_toNat (op : BitVec 8) : (formatN op).toNat = op.toNat :=
  BitVec.toNat_setWidth_of_le (by decide)

theorem formatB_toNat (byte op : BitVec 8) : (formatB byte op).toNat = byte.toNat * 2 ^ 8 + op.toNat := by
  have hop := formatN_toNat op
  exact (shiftLeft_or_toNat (by decide) byte (formatN op) (by omega)).trans (by rw [hop])

theorem formatL_toNat (rxlen : BitVec 16) (op : BitVec 8) :
    (formatL rxlen op).toNat = rxlen.toNat * 2 ^ 16 + op.toNat := by
  have hop := formatN_toNat op
  exact (shiftLeft_or_toNat (by decide) rxlen (formatN op) (by omega)).trans (by rw [hop])

/-- Format S is format B's construction twice: `LEN` above `START` above the opcode. -/
theorem formatS_toNat (len start : BitVec 10) (op : BitVec 8) :
    (formatS len start op).toNat = len.toNat * 2 ^ 18 + start.toNat * 2 ^ 8 + op.toNat := by
  have hop := formatN_toNat op
  have hlow : (start.setWidth 32 <<< 8 ||| formatN op).toNat = start.toNat * 2 ^ 8 + op.toNat := by
    rw [shiftLeft_or_toNat (by decide) start _ (by omega), hop]
  rw [formatS, BitVec.or_assoc, ← formatN, shiftLeft_or_toNat (by decide) len _ (by omega), hlow, Nat.add_assoc]

/-! A word has a format exactly when its fields are the format's and its must-be-zero bits are 0. -/

theorem eq_formatN_iff {w : Word} {op : BitVec 8} : w = formatN op ↔ fieldOp w = op ∧ w.extractLsb' 8 24 = 0 := by
  simp only [← BitVec.toNat_inj, fieldOp, extract_toNat, formatN_toNat, BitVec.ofNat_eq_ofNat, BitVec.toNat_ofNat]
  omega

theorem eq_formatB_iff {w : Word} {byte op : BitVec 8} :
    w = formatB byte op ↔ (fieldOp w = op ∧ w.extractLsb' 16 16 = 0) ∧ byte = fieldByte w := by
  simp only [← BitVec.toNat_inj, fieldOp, fieldByte, extract_toNat, formatB_toNat, BitVec.ofNat_eq_ofNat, BitVec.toNat_ofNat]
  omega

theorem eq_formatS_iff {w : Word} {len start : BitVec 10} {op : BitVec 8} :
    w = formatS len start op ↔
      (fieldOp w = op ∧ w.extractLsb' 28 4 = 0) ∧ start = fieldStart w ∧ len = fieldLen w := by
  simp only [← BitVec.toNat_inj, fieldOp, fieldStart, fieldLen, extract_toNat, formatS_toNat, BitVec.ofNat_eq_ofNat,
    BitVec.toNat_ofNat]
  omega

theorem eq_formatL_iff {w : Word} {rxlen : BitVec 16} {op : BitVec 8} :
    w = formatL rxlen op ↔ (fieldOp w = op ∧ w.extractLsb' 8 8 = 0) ∧ rxlen = fieldRxlen w := by
  simp only [← BitVec.toNat_inj, fieldOp, fieldRxlen, extract_toNat, formatL_toNat, BitVec.ofNat_eq_ofNat, BitVec.toNat_ofNat]
  omega

/-! ### A row's mask as two fields: the opcode and the must-be-zero bits (R91, R93) -/

/-- The mask of the `len` bits from bit `start` on. -/
def fieldMask (start len : Nat) : Word := (BitVec.allOnes len).setWidth 32 <<< start

theorem fieldMask_getLsbD (start len i : Nat) (hi : i < 32) :
    (fieldMask start len).getLsbD i = decide (start ≤ i ∧ i < start + len) := by
  rw [fieldMask, BitVec.getLsbD_shiftLeft, BitVec.getLsbD_setWidth, BitVec.getLsbD_allOnes]
  grind

/-- Words agree under a field's mask exactly when the field is the same. -/
theorem and_fieldMask_eq_iff (w v : Word) (start len : Nat) :
    w &&& fieldMask start len = v &&& fieldMask start len ↔ w.extractLsb' start len = v.extractLsb' start len := by
  simp only [BitVec.eq_of_getLsbD_eq_iff, BitVec.getLsbD_and, BitVec.getLsbD_extractLsb']
  constructor
  · intro h i hi
    by_cases hin : start + i < 32
    · have hbit := h (start + i) hin
      rw [fieldMask_getLsbD _ _ _ hin] at hbit
      simpa [hi] using hbit
    · rw [BitVec.getLsbD_of_ge w _ (by omega), BitVec.getLsbD_of_ge v _ (by omega)]
  · intro h i hi
    rw [fieldMask_getLsbD _ _ _ hi]
    by_cases hin : start ≤ i ∧ i < start + len
    · have hbit := h (i - start) (by omega)
      rw [Nat.add_sub_cancel' hin.1] at hbit
      simpa [hin, show i - start < len by omega] using hbit
    · simp [hin]

/-- A test under the union of two masks is the test under each. -/
theorem and_or_eq_iff {w v m n : Word} (hv : v &&& (m ||| n) = v) :
    w &&& (m ||| n) = v ↔ w &&& m = v &&& m ∧ w &&& n = v &&& n := by
  simp only [BitVec.eq_of_getLsbD_eq_iff, BitVec.getLsbD_and, BitVec.getLsbD_or] at hv ⊢
  grind

/-- A row's test reads two fields. -/
theorem match_iff_fields {w m v : Word} {start len : Nat} (hm : m = fieldMask 0 8 ||| fieldMask start len)
    (hv : v &&& m = v) : w &&& m = v ↔ fieldOp w = fieldOp v ∧ w.extractLsb' start len = v.extractLsb' start len := by
  subst hm
  rw [and_or_eq_iff hv, and_fieldMask_eq_iff, and_fieldMask_eq_iff, fieldOp, fieldOp]

/-! ### The round trips (R91, R93, R94) -/

/-- A word stands for a command exactly when it is the command's encoding: its row's mask checks the opcode and the
must-be-zero bits, and the operands are the remaining bits. -/
theorem decode_eq_ok_iff (w : Word) (i : Instr) : decode w = .ok i ↔ w = encode i := by
  obtain ⟨hnop, hckInit, hckFeed, hckSpan, hfrClear, hfrEncode, hfrSeal, hfrDecode, -⟩ :=
    opcodeMapSelectsByMatchAndMask w
  cases i with
  | nop => rw [hnop, and_fullMask]; rfl
  | ckInit => rw [hckInit, and_fullMask]; rfl
  | ckFeed byte =>
    rw [hckFeed, match_iff_fields (start := 16) (len := 16) (by decide) (by decide), encode, eq_formatB_iff]
    rfl
  | ckSpan start len =>
    rw [hckSpan, match_iff_fields (start := 28) (len := 4) (by decide) (by decide), encode, eq_formatS_iff]
    rfl
  | frClear => rw [hfrClear, and_fullMask]; rfl
  | frEncode => rw [hfrEncode, and_fullMask]; rfl
  | frSeal => rw [hfrSeal, and_fullMask]; rfl
  | frDecode rxlen =>
    rw [hfrDecode, match_iff_fields (start := 8) (len := 8) (by decide) (by decide), encode, eq_formatL_iff]
    rfl

/-- Settles O1: an encoded command is its own encoding. -/
theorem decodeOfEncodeIsTheCommand : Obligations.DecodeOfEncodeIsTheCommand := fun i =>
  (decode_eq_ok_iff (encode i) i).mpr rfl

/-- Settles O2, by the same equivalence read the other way. -/
theorem encodeOfDecodeIsTheWord : Obligations.EncodeOfDecodeIsTheWord := fun w i h =>
  ((decode_eq_ok_iff w i).mp h).symm

/-- Settles O5: each legal word is the encoding written out. -/
theorem wordsOfTheSpecDecode : Obligations.WordsOfTheSpecDecode := by
  refine ⟨?_, ?_, ?_, ?_, ?_, ?_, ?_, ?_, ?_, ?_, by decide, by decide, by decide⟩
  all_goals exact (decode_eq_ok_iff _ _).mpr (by decide)

/-! ### The legal and the illegal words (R94) -/

/-- The words that are commands, format by format. -/
theorem exists_eq_encode_iff (w : Word) :
    (∃ i, w = encode i) ↔
      (fieldOp w ∈ [0x00#8, 0x01#8, 0x10#8, 0x11#8, 0x12#8] ∧ w.extractLsb' 8 24 = 0) ∨
      (fieldOp w = 0x02#8 ∧ w.extractLsb' 16 16 = 0) ∨
      (fieldOp w = 0x03#8 ∧ w.extractLsb' 28 4 = 0) ∨
      (fieldOp w = 0x13#8 ∧ w.extractLsb' 8 8 = 0) := by
  constructor
  · rintro ⟨i, h⟩
    cases i with
    | nop | ckInit | frClear | frEncode | frSeal =>
      obtain ⟨hop, hzero⟩ := eq_formatN_iff.mp h
      exact .inl ⟨by simp [hop], hzero⟩
    | ckFeed byte => exact .inr (.inl (eq_formatB_iff.mp h).1)
    | ckSpan start len => exact .inr (.inr (.inl (eq_formatS_iff.mp h).1))
    | frDecode rxlen => exact .inr (.inr (.inr (eq_formatL_iff.mp h).1))
  · rintro (⟨hop, hzero⟩ | h | h | h)
    · simp only [List.mem_cons, List.not_mem_nil, or_false] at hop
      rcases hop with hop | hop | hop | hop | hop
      · exact ⟨.nop, eq_formatN_iff.mpr ⟨hop, hzero⟩⟩
      · exact ⟨.ckInit, eq_formatN_iff.mpr ⟨hop, hzero⟩⟩
      · exact ⟨.frClear, eq_formatN_iff.mpr ⟨hop, hzero⟩⟩
      · exact ⟨.frEncode, eq_formatN_iff.mpr ⟨hop, hzero⟩⟩
      · exact ⟨.frSeal, eq_formatN_iff.mpr ⟨hop, hzero⟩⟩
    · exact ⟨.ckFeed (fieldByte w), eq_formatB_iff.mpr ⟨h, rfl⟩⟩
    · exact ⟨.ckSpan (fieldStart w) (fieldLen w), eq_formatS_iff.mpr ⟨h, rfl, rfl⟩⟩
    · exact ⟨.frDecode (fieldRxlen w), eq_formatL_iff.mpr ⟨h, rfl⟩⟩

/-- A word is illegal exactly when it encodes no command. -/
theorem decode_eq_error_iff (w : Word) : (∃ e, decode w = .error e) ↔ ¬ ∃ i, w = encode i := by
  simp only [← decode_eq_ok_iff]
  cases decode w <;> simp

/-- The unallocated opcodes as ranges. -/
theorem op_unallocated_iff (op : BitVec 8) :
    ((0x04 ≤ op.toNat ∧ op.toNat ≤ 0x0F) ∨ 0x14 ≤ op.toNat) ↔
      op ∉ [0x00#8, 0x01#8, 0x10#8, 0x11#8, 0x12#8] ∧ op ≠ 0x02#8 ∧ op ≠ 0x03#8 ∧ op ≠ 0x13#8 := by
  simp only [List.mem_cons, List.not_mem_nil, or_false, ← BitVec.toNat_inj, BitVec.toNat_ofNat, ne_eq]
  omega

/-- The illegal words, by opcode range and must-be-zero field. -/
theorem decode_eq_error_iff_fields (w : Word) :
    (∃ e, decode w = .error e) ↔
      ((0x04 ≤ (fieldOp w).toNat ∧ (fieldOp w).toNat ≤ 0x0F) ∨ 0x14 ≤ (fieldOp w).toNat) ∨
      (fieldOp w ∈ [0x00#8, 0x01#8, 0x10#8, 0x11#8, 0x12#8] ∧ w.extractLsb' 8 24 ≠ 0) ∨
      (fieldOp w = 0x02#8 ∧ w.extractLsb' 16 16 ≠ 0) ∨
      (fieldOp w = 0x03#8 ∧ w.extractLsb' 28 4 ≠ 0) ∨
      (fieldOp w = 0x13#8 ∧ w.extractLsb' 8 8 ≠ 0) := by
  rw [decode_eq_error_iff, exists_eq_encode_iff, op_unallocated_iff]
  -- Each opcode has one format, so the four formats exclude each other.
  grind

/-! ### The assembler (R95) -/

theorem asmOperand_of_lt {n v : Nat} (h : v < 2 ^ n) : asmOperand n v = some (BitVec.ofNat n v) := if_pos h

/-- An operand is refused exactly when it is outside its field. -/
theorem asmOperand_eq_none_iff (n v : Nat) : asmOperand n v = none ↔ 2 ^ n ≤ v := by
  rw [asmOperand]
  split <;> simp <;> omega

theorem asmSpan_of_lt {start len : Nat} (hstart : start < 2 ^ 10) (hlen : len < 2 ^ 10) :
    asmSpan start len = some (.ckSpan (BitVec.ofNat 10 start) (BitVec.ofNat 10 len)) := by
  rw [asmSpan, asmOperand_of_lt hstart, asmOperand_of_lt hlen]

/-- A span is refused exactly when one of its operands is. -/
theorem asmSpan_eq_none_iff (start len : Nat) : asmSpan start len = none ↔ 2 ^ 10 ≤ start ∨ 2 ^ 10 ≤ len := by
  rw [← asmOperand_eq_none_iff, ← asmOperand_eq_none_iff, asmSpan]
  cases asmOperand 10 start <;> cases asmOperand 10 len <;> simp

/-- Settles O6, from what an operand and a span assemble to. -/
theorem assemblerExpandsPseudoInstructions : Obligations.AssemblerExpandsPseudoInstructions := by
  refine ⟨fun _ => rfl, fun start len hstart hlen => ?_, rfl, fun b => ?_, fun start len => ?_, fun n => ?_,
    fun start len => ?_⟩
  · rw [assemble, asmSpan_of_lt hstart hlen, Option.map_some]
  · exact Option.map_eq_none_iff.trans (asmOperand_eq_none_iff 8 b)
  · exact Option.map_eq_none_iff.trans (asmSpan_eq_none_iff start len)
  · exact Option.map_eq_none_iff.trans (asmOperand_eq_none_iff 16 n)
  · exact Option.map_eq_none_iff.trans (asmSpan_eq_none_iff start len)

/-! ### The range check (R92, R96) -/

/-- The one command that fails the operand check: a `CK.SPAN` beyond the buffer. -/
theorem wf_eq_false_iff_of_decode {w : Word} {i : Instr} (h : decode w = .ok i) :
    i.wf = false ↔ fieldOp w = 0x03#8 ∧ 574 < (fieldStart w).toNat + (fieldLen w).toNat := by
  obtain ⟨r, hr, hsel, rfl⟩ := (decode_eq_ok_iff_row w i).mp h
  rw [fieldOp_of_selects hr hsel]
  simp only [opcodeMap, List.mem_cons, List.not_mem_nil, or_false] at hr
  rcases hr with rfl | rfl | rfl | rfl | rfl | rfl | rfl | rfl <;> simp [Instr.wf, fieldOp]

end Sys2Proof

namespace Sys2Proof.Machine

/-! ### The issue of a command word (R94, R96) -/

theorem issue_busy {s : State} (w : Word) (h : s.busy = true) : issue w s = s.raise .busy := if_pos h

theorem issue_illegal {s : State} {w : Word} {e : DecodeError} (hp : s.pend = none) (hd : decode w = .error e) :
    issue w s = s.raise .cmd := by
  simp [issue, (busy_eq_false_iff s).mpr hp, hd]

theorem issue_outOfRange {s : State} {w : Word} {i : Instr} (hp : s.pend = none) (hd : decode w = .ok i)
    (hwf : i.wf = false) : issue w s = s.raise .range := by
  simp [issue, (busy_eq_false_iff s).mpr hp, hd, hwf]

/-- Settles O4: the illegal words by their fields, and the one effect of writing one. -/
theorem illegalWordsAreRefused : Obligations.IllegalWordsAreRefused := by
  refine ⟨decode_eq_error_iff_fields, fun w e s hd hp => ?_, (decode_eq_ok_iff _ _).mpr (by decide)⟩
  rw [busAccess_cmdWrite, issue_illegal hp hd]
  rfl

/-- Settles O42: the four outcomes of the issue, the completion of the accepted command, and the wrong sizes. -/
theorem issueHasOneOutcome : Obligations.IssueHasOneOutcome := by
  refine ⟨fun s w hbusy => ?busy, fun s w hidle => ?idle, fun s w n hn => ?size⟩
  case busy =>
    rw [busAccess_cmdWrite, issue_busy w hbusy]
    rfl
  case idle =>
    have hp := (busy_eq_false_iff s).mp hidle
    refine ⟨fun e hd => ?illegal, fun i hd => ⟨fun hrange => ?outOfRange, fun hrange => ⟨?accepted, ?completed⟩⟩⟩
    case illegal =>
      rw [busAccess_cmdWrite, issue_illegal hp hd]
      rfl
    case outOfRange =>
      rw [busAccess_cmdWrite, issue_outOfRange hp hd ((wf_eq_false_iff_of_decode hd).mpr hrange)]
      rfl
    case accepted =>
      have hwf : i.wf = true := by
        rw [← Bool.not_eq_false, wf_eq_false_iff_of_decode hd]
        exact hrange
      rw [busAccess_cmdWrite, issue_accepted s w i hp hd hwf]
      rfl
    case completed =>
      exact ⟨_, engineTurn_of_decode rfl hd, exec_eq_performed i _, complete_busy _⟩
  case size =>
    rw [busAccess_illegal _ s (by rw [legal_outside _ _ _ (by decide)]; simp [hn])]
    rfl

end Sys2Proof.Machine
end

section
/-! The checksum engine's statements (40_checksum.md): `mix` and `fin` in natural numbers, what offering one byte does, what
follows from the zero stop, and the commands `CK.INIT`, `CK.FEED` and `CK.SPAN`. -/

namespace Sys2Proof.Machine

/-! ### The mixing step and the finalisation in natural numbers (R130, R131) -/

/-- The step `a += a << k` that `mix` and `fin` share. -/
theorem add_shiftLeft_toNat (a : Word) (k : Nat) : (a + a <<< k).toNat = (a.toNat + a.toNat * 2 ^ k) % 2 ^ 32 := by
  rw [BitVec.toNat_add, BitVec.toNat_shiftLeft, Nat.shiftLeft_eq, Nat.add_mod_mod]

/-- The step `a ^= a >> k` that `mix` and `fin` share. -/
theorem xor_ushiftRight_toNat (a : Word) (k : Nat) : (a ^^^ a >>> k).toNat = a.toNat ^^^ (a.toNat / 2 ^ k) := by
  rw [BitVec.toNat_xor, BitVec.toNat_ushiftRight, Nat.shiftRight_eq_div_pow]

/-- The byte is added zero-extended (R136). -/
theorem add_byte_toNat (a : Word) (b : Byte) : (a + b.setWidth 32).toNat = (a.toNat + b.toNat) % 2 ^ 32 := by
  rw [BitVec.toNat_add, BitVec.toNat_setWidth_of_le (by decide)]

theorem mix_zero : mix 0 0 = 0 := by decide

theorem fin_zero : fin 0 = 0 := by decide

/-- Settles O7, each of the three steps of `mix` by its formula. -/
theorem mixIsTheUnsignedFormula : Obligations.MixIsTheUnsignedFormula := by
  intro a b
  dsimp only [mix]
  rw [xor_ushiftRight_toNat, add_shiftLeft_toNat, add_byte_toNat]

/-- Settles O8: the three steps of `fin` by their formulas, and the read of `DIGEST` as a register's. -/
theorem finIsTheUnsignedFormula : Obligations.FinIsTheUnsignedFormula := by
  refine ⟨fun a => ?_, fin_zero, fun s hp => readsAs_reg .digest hp rfl targetAt_digest⟩
  dsimp only [fin]
  rw [add_shiftLeft_toNat, xor_ushiftRight_toNat, add_shiftLeft_toNat]

/-! ### Offering one byte (R132) -/

/-- Settles O9: the three branches of an offer. -/
theorem offerFollowsTheMixingStep : Obligations.OfferFollowsTheMixingStep := fun e b =>
  ⟨fun zs => offer_term zs e b, fun hterm hb => hb ▸ offer_zero e hterm, fun zs => offer_mixed zs e b⟩

/-- With the zero stop, the three branches of an offer as one equation. -/
theorem offer_zeroStop (e : Engine) (b : Byte) :
    e.offer true b = if e.term then e else if b = 0 then { e with term := true } else ⟨mix e.acc b, false, e.cnt + 1⟩ := by
  cases hterm : e.term with
  | true => rw [if_pos rfl, offer_term true e b hterm]
  | false =>
    rw [if_neg (by decide)]
    split
    case isTrue hb => rw [hb, offer_zero e hterm]
    case isFalse hb => exact offer_mixed true e b hterm (.inr hb)

/-- A zero byte never moves `ACC` from 0, whether it terminates, is refused or is mixed. -/
theorem offer_zero_acc (zs : Bool) (e : Engine) (h : e.acc = 0) : (e.offer zs 0).acc = 0 := by
  cases hterm : e.term with
  | true => rw [offer_term zs e 0 hterm, h]
  | false =>
    cases zs with
    | true => rw [offer_zero e hterm, h]
    | false =>
      rw [offer_mixed false e 0 hterm (.inl rfl), h]
      exact mix_zero

/-- An offer does not look at `CNT`: a count started `d` higher ends `d` higher, and nothing else differs. -/
theorem offer_cnt_add (zs : Bool) (e : Engine) (b : Byte) (d : Word) :
    Engine.offer zs { e with cnt := e.cnt + d } b = { e.offer zs b with cnt := (e.offer zs b).cnt + d } := by
  unfold Engine.offer
  dsimp only
  split
  case isTrue => rfl
  case isFalse =>
    split
    case isTrue => rfl
    case isFalse => rw [add_right_comm]

/-! ### Feeding a string (R133, R135) -/

theorem feed_cnt_add (zs : Bool) (e : Engine) (bs : List Byte) (d : Word) :
    Engine.feed zs { e with cnt := e.cnt + d } bs = { e.feed zs bs with cnt := (e.feed zs bs).cnt + d } := by
  induction bs generalizing e with
  | nil => rfl
  | cons b bs ih => rw [feed_cons, offer_cnt_add, ih, feed_cons]

/-- Without the zero stop a leading zero counts and does nothing else. -/
theorem feed_leading_zero (s : List Byte) :
    Engine.init.feed false (0 :: s)
      = { Engine.init.feed false s with cnt := (Engine.init.feed false s).cnt + 1 } := by
  rw [← feed_cnt_add, feed_cons]
  rfl

/-- Zeros never move `ACC` from 0. -/
theorem feed_zeros_acc (zs : Bool) (e : Engine) (n : Nat) (h : e.acc = 0) : (e.feed zs (List.replicate n 0)).acc = 0 := by
  induction n generalizing e with
  | zero => exact h
  | succ n ih =>
    rw [List.replicate_succ, feed_cons]
    exact ih _ (offer_zero_acc zs e h)

/-- With the zero stop the bytes from the first zero on can change `TERM` only. -/
theorem feed_takeWhile (e : Engine) (s : List Byte) :
    ∃ t, e.feed true s = { e.feed true (s.takeWhile fun b => b != 0) with term := t } := by
  induction s generalizing e with
  | nil => exact ⟨e.term, rfl⟩
  | cons b s ih =>
    by_cases hb : b = 0
    · subst hb
      rw [List.takeWhile_cons_of_neg (by decide), feed_zero_cons, feed_cons, feed_nil, feed_nil]
      cases hterm : e.term with
      | true => exact ⟨true, by rw [offer_term true e 0 hterm, ← hterm]⟩
      | false => exact ⟨true, offer_zero e hterm⟩
    · rw [List.takeWhile_cons_of_pos (by simpa using hb), feed_cons, feed_cons]
      exact ih _

/-- Settles O10: the string before its first zero, leading zeros, and pieces. -/
theorem streamingConsequences : Obligations.StreamingConsequences := by
  refine ⟨fun s => ?stop, mix_zero, fun zs n => feed_zeros_acc zs Engine.init n rfl, fun s => ?leading, feed_append⟩
  case stop =>
    obtain ⟨t, ht⟩ := feed_takeWhile Engine.init s
    have hne : ∀ b ∈ s.takeWhile fun b => b != 0, b ≠ 0 := fun b hb => by simpa using List.mem_takeWhile_imp hb
    obtain ⟨-, hcnt⟩ := feed_nonzero Engine.init _ rfl hne
    constructor
    · rw [checksum, ht]
      rfl
    · rw [ht]
      exact hcnt.trans (BitVec.zero_add _)
  case leading =>
    rw [checksum, feed_leading_zero]
    exact ⟨rfl, rfl⟩

/-! ### The commands (R140, R145, R150) -/

/-- Settles O11: the engine's initial state, whose digest is `fin 0`. -/
theorem ckInitInitialisesTheEngine : Obligations.CkInitInitialisesTheEngine := fun s =>
  ⟨_, exec_eq_performed .ckInit s, rfl, fin_zero⟩

/-- Settles O12: the byte is offered, in one of the three ways. -/
theorem ckFeedOffersItsByte : Obligations.CkFeedOffersItsByte := by
  intro s b
  rw [exec_eq_performed, ← offer_zeroStop]
  rfl

/-- A span inside the buffer is fed to the engine, and nothing else changes. -/
theorem exec_ckSpan_inside (s : State) {start len : BitVec 10} (h : start.toNat + len.toNat ≤ 574) :
    exec (.ckSpan start len) s
      = .next { s with eng := s.eng.feed true (s.buf.bytes start.toNat len.toNat), pend := none } := by
  rw [exec_eq_performed, performed, if_pos h]
  rfl

/-- Feeding a span of the buffer offers its bytes in increasing order. -/
theorem feed_bytes (zs : Bool) (e : Engine) (m : Memory) (start len : Nat) :
    e.feed zs (m.bytes start len) = (List.range len).foldl (fun e k => e.offer zs (m.read (start + k))) e :=
  List.foldl_map

/-- Settles O13: the span's bytes in order; the empty span has none. -/
theorem ckSpanOffersTheSpan : Obligations.CkSpanOffersTheSpan := by
  refine ⟨fun s start len h => ?_, fun s start h => ?_⟩
  · rw [exec_ckSpan_inside s h, feed_bytes]
  · exact exec_ckSpan_inside s h

/-! ### Lists of commands (R151) -/

theorem runCommands_cons (i : Instr) (is : List Instr) (s : State) :
    runCommands (i :: is) s = runCommands is (performed i s).complete := by
  rw [runCommands, exec_eq_performed]

/-- Feeding bytes one command each feeds the engine their string and changes nothing else but `PEND`. -/
theorem runCommands_ckFeed (bs : List Byte) (s : State) :
    ∃ p, runCommands (bs.map .ckFeed) s = .next { s with eng := s.eng.feed true bs, pend := p } := by
  induction bs generalizing s with
  | nil => exact ⟨s.pend, rfl⟩
  | cons b bs ih =>
    rw [List.map_cons, runCommands_cons]
    exact ih _

/-- Settles O15: the span and the single feeds both feed the engine the same string. -/
theorem spanEqualsFeeds : Obligations.SpanEqualsFeeds := by
  refine ⟨fun s start len h => ?span, fun s x => ?string⟩
  case span =>
    obtain ⟨p, hrun⟩ := runCommands_ckFeed (s.buf.bytes start.toNat len.toNat) s
    exact ⟨_, _, exec_ckSpan_inside s h, hrun, rfl, rfl, rfl⟩
  case string =>
    obtain ⟨p, hrun⟩ := runCommands_ckFeed x (performed .ckInit s).complete
    exact ⟨_, (runCommands_cons .ckInit _ s).trans hrun, rfl⟩

end Sys2Proof.Machine
end

section
/-! The frame codec's statements (41_frame_codec.md): the frame digest, and the commands `FR.CLEAR`, `FR.SEAL`, `FR.ENCODE` and
`FR.DECODE`. -/

namespace Sys2Proof.Machine

/-! ### The frame digest (R171 to R173) -/

/-- Settles O17: the hashed span, byte by byte. -/
theorem frameDigestOffersTheHashedSpan : Obligations.FrameDigestOffersTheHashedSpan := fun _ _ =>
  ⟨List.foldl_map, rfl⟩

/-- With the zero stop the digest's engine mixes the header bytes before the first zero and terminates at that zero. -/
theorem digestEngine_zeroStop (m : Memory) :
    digestEngine true m = { Engine.init.feed true (m.bytes 0 (strnlen m 0 58)) with term := true } := by
  obtain ⟨rest, hspan⟩ := hashedSpan_split m
  rw [digestEngine, hspan, feed_nonzero_zero _ _ (bytes_before_zero m 0 58)]

theorem frameDigest_zeroStop (m : Memory) : frameDigest true m = checksum true (m.bytes 0 (strnlen m 0 58)) := by
  rw [frameDigest, digestEngine_zeroStop]
  rfl

theorem digestEngine_zeroStop_cnt (m : Memory) : (digestEngine true m).cnt = BitVec.ofNat 32 (strnlen m 0 58) := by
  obtain ⟨-, hcnt⟩ := feed_nonzero Engine.init _ rfl (bytes_before_zero m 0 58)
  rw [bytes_length] at hcnt
  rw [digestEngine_zeroStop]
  exact hcnt.trans (BitVec.zero_add _)

/-- The digest's engine looks at the header up to its first zero, and at nothing else. -/
theorem digestEngine_congr_upToZero {m m' : Memory} (h : ∀ a < 58, a ≤ strnlen m 0 58 → m'.read a = m.read a) :
    digestEngine true m' = digestEngine true m := by
  have hle := strnlen_le m 0 58
  have hread : ∀ k < 58, k ≤ strnlen m 0 58 → m'.read (0 + k) = m.read (0 + k) := by simpa only [Nat.zero_add] using h
  have hlen : strnlen m' 0 58 = strnlen m 0 58 := by
    refine strnlen_unique m' 0 58 _ hle (fun j hj => ?_) (fun hz => ?_)
    · rw [hread j (by omega) (by omega)]
      exact strnlen_nonzero m 0 58 j hj
    · rw [hread _ hz le_rfl]
      exact strnlen_stop m 0 58 hz
  rw [digestEngine_zeroStop, digestEngine_zeroStop, hlen,
    bytes_congr m' m 0 _ fun k hk => hread k (by omega) (by omega)]

/-- A zero subtype byte ends the header string after the type byte at the latest. -/
theorem strnlen_of_zero_subtype {m : Memory} (h : m.read 1 = 0) : strnlen m 0 58 = if m.read 0 = 0 then 0 else 1 := by
  split
  case isTrue h0 => exact strnlen_unique m 0 58 0 (by omega) (fun j hj => by omega) fun _ => h0
  case isFalse h0 =>
    refine strnlen_unique m 0 58 1 (by omega) (fun j hj => ?_) fun _ => h
    obtain rfl : j = 0 := by omega
    exact h0

theorem digestEngine_cnt_of_zero_subtype {m : Memory} (h : m.read 1 = 0) :
    (digestEngine true m).cnt = if m.read 0 = 0 then 0 else 1 := by
  rw [digestEngine_zeroStop_cnt, strnlen_of_zero_subtype h]
  split <;> rfl

/-- With a zero subtype byte the digest is the type byte's checksum: a zero type byte is not mixed. -/
theorem frameDigest_of_zero_subtype {m : Memory} (h : m.read 1 = 0) : frameDigest true m = checksum true [m.read 0] := by
  rw [frameDigest_zeroStop, strnlen_of_zero_subtype h]
  split
  case isTrue h0 => rw [h0]; rfl
  case isFalse h0 => rfl

theorem frameDigest_of_zero_type {m : Memory} (h : m.read 0 = 0) : frameDigest true m = 0 := by
  rw [frameDigest_zeroStop, strnlen_unique m 0 58 0 (by omega) (fun j hj => by omega) fun _ => h]
  exact fin_zero

/-- Settles O18, from the engine the digest leaves. -/
theorem frameDigestStopsAtTheFirstZero : Obligations.FrameDigestStopsAtTheFirstZero := by
  intro m
  refine ⟨⟨strnlen_le m 0 58, fun j hj => ?_, fun hz => ?_⟩, frameDigest_zeroStop m, ?_, digestEngine_zeroStop_cnt m,
    frameDigest_of_zero_type, frameDigest_of_zero_subtype, fun m' h => digestEngine_congr_upToZero fun a ha _ => h a ha⟩
  · simpa using strnlen_nonzero m 0 58 j hj
  · simpa using strnlen_stop m 0 58 hz
  · rw [digestEngine_zeroStop]

/-- Settles O19. -/
theorem bytesAfterTheFirstZeroAreNotHashed : Obligations.BytesAfterTheFirstZeroAreNotHashed := fun _ _ h =>
  congrArg Engine.digest (digestEngine_congr_upToZero h)

/-! ### Sealed buffers (R170, R185)

`FR.SEAL` and `FR.ENCODE` both end by storing the buffer's digest in bytes 58 to 61. The digest does not hash these bytes, so
the buffer they leave is one whose stored integrity is its own digest. -/

/-- The buffer with its digest stored in the integrity field. -/
def Memory.sealed (m : Memory) : Memory := memWrite m integrityOff 4 (frameDigest true m)

@[simp] theorem digestEngine_sealed (m : Memory) : digestEngine true m.sealed = digestEngine true m :=
  digestEngine_memWrite_integrity true m _

@[simp] theorem frameDigest_sealed (m : Memory) : frameDigest true m.sealed = frameDigest true m :=
  frameDigest_memWrite_integrity true m _

@[simp] theorem payloadLen_sealed (m : Memory) : payloadLen m.sealed = payloadLen m := payloadLen_memWrite_integrity m _

theorem read_sealed_outside (m : Memory) {a : Nat} (h : a < 58 ∨ 61 < a) : m.sealed.read a = m.read a :=
  read_memWrite_integrity m _ a h

theorem read_sealed_integrity (m : Memory) {k : Nat} (h : k < 4) :
    m.sealed.read (58 + k) = (frameDigest true m).extractLsb' (8 * k) 8 := by
  rw [Memory.sealed, read_memWrite, if_pos (by have := layout; omega), Nat.add_sub_cancel_left]

/-- The received integrity of a sealed buffer is its digest. -/
theorem memRead_sealed (m : Memory) : memRead m.sealed 58 4 = frameDigest true m := memRead_memWrite m 58 _ (by decide)

theorem bytes_sealed (m : Memory) : m.sealed.bytes 58 4 = leBytes 4 (frameDigest true m) :=
  List.map_congr_left fun _ hk => read_sealed_integrity m (List.mem_range.mp hk)

/-- Sealing a sealed buffer changes no byte. -/
theorem read_sealed_sealed (m : Memory) (a : Nat) : m.sealed.sealed.read a = m.sealed.read a := by
  by_cases h : a < 58 ∨ 61 < a
  · exact read_sealed_outside _ h
  · obtain ⟨k, rfl⟩ : ∃ k, a = 58 + k := ⟨a - 58, by omega⟩
    rw [read_sealed_integrity _ (by omega), read_sealed_integrity _ (by omega), frameDigest_sealed]

/-- Buffers that agree but for their integrity fields are equal once sealed. -/
theorem read_sealed_congr {m m' : Memory} (h : ∀ a, a < 58 ∨ (62 ≤ a ∧ a < 574) → m.read a = m'.read a) {a : Nat}
    (ha : a < 574) : m.sealed.read a = m'.sealed.read a := by
  by_cases hout : a < 58 ∨ 61 < a
  · rw [read_sealed_outside _ hout, read_sealed_outside _ hout, h a (by omega)]
  · obtain ⟨k, rfl⟩ : ∃ k, a = 58 + k := ⟨a - 58, by omega⟩
    rw [read_sealed_integrity _ (by omega), read_sealed_integrity _ (by omega), frameDigest_congr true m m' h]

/-! ### `FR.CLEAR` (R176) -/

theorem exec_frClear (s : State) : exec .frClear s = .next { s with buf := s.buf.zero 0 574, pend := none } := by
  rw [exec_eq_performed, performed, State.complete]

theorem read_cleared (m : Memory) {a : Nat} (h : a < 574) : (m.zero 0 574).read a = 0 := by
  rw [read_zero, if_pos (by omega)]

theorem read_cleared_beyond (m : Memory) {a : Nat} (h : 574 ≤ a) : (m.zero 0 574).read a = m.read a := by
  rw [read_zero, if_neg (by omega)]

/-- Settles O20. -/
theorem frClearZeroesTheBuffer : Obligations.FrClearZeroesTheBuffer := fun s =>
  ⟨_, exec_frClear s, fun _ => read_cleared s.buf, fun _ => read_cleared_beyond s.buf⟩

theorem memRead_cleared_integrity (m : Memory) : memRead (m.zero 0 574) 58 4 = 0 := by
  refine word_eq_of_bytes _ _ fun k hk => ?_
  rw [memRead_byte _ _ _ _ hk hk, windowByte, if_pos (by have := layout; omega), read_cleared m (by omega)]
  exact BitVec.extractLsb'_zero.symm

theorem payloadLen_cleared (m : Memory) : payloadLen (m.zero 0 574) = 0 :=
  if_neg (by rw [read_cleared m (a := typeOff) (by decide)]; decide)

/-! ### `FR.SEAL` (R185) -/

/-- `ZERO_STOP` is 1 in this hardware (R8). -/
theorem zeroStop_eq : Config.zeroStop = true := rfl

theorem exec_frSeal (s : State) :
    exec .frSeal s = .next { s with
      eng := digestEngine true s.buf
      calcReg := frameDigest true s.buf
      plen := BitVec.ofNat 10 (payloadLen s.buf)
      buf := s.buf.sealed
      pend := none } := by
  rw [exec_eq_performed, performed, zeroStop_eq, State.seal, State.takeDigest, State.complete, Memory.sealed]

/-- Settles O24. -/
theorem frSealFillsTheIntegrityField : Obligations.FrSealFillsTheIntegrityField := fun s =>
  ⟨s.buf.sealed, exec_frSeal s, fun _ => read_sealed_integrity s.buf, fun _ => read_sealed_outside s.buf⟩

/-- Settles O25: the digest and the payload length of a sealed buffer are those it was sealed with. -/
theorem sealIsIdempotent : Obligations.SealIsIdempotent := by
  refine fun s => ⟨_, _, exec_frSeal s, exec_frSeal _, ?_, read_sealed_sealed s.buf⟩
  dsimp only
  rw [digestEngine_sealed, frameDigest_sealed, payloadLen_sealed]

/-! ### `FR.ENCODE` (R174, R180, R181) -/

/-- `FR.ENCODE` seals the canonical frame. -/
theorem exec_frEncode (s : State) :
    exec .frEncode s = .next { s with
      eng := digestEngine true (canonFrame s.buf)
      calcReg := frameDigest true (canonFrame s.buf)
      plen := BitVec.ofNat 10 (payloadLen (canonFrame s.buf))
      buf := (canonFrame s.buf).sealed
      pend := none } := by
  rw [exec_eq_performed, performed, zeroStop_eq, State.encodeFrame, State.seal, State.takeDigest, State.complete, Memory.sealed]

theorem read_canonFrame_zeroed (m : Memory) {a : Nat} (h1 : 1 ≤ a) (h3 : a ≤ 3) : (canonFrame m).read a = 0 := by
  rw [read_canonFrame, if_pos (by omega)]

/-- An address field of the canonical frame: its string, then zeros. -/
theorem read_canonFrame_address (m : Memory) {base i : Nat} (hbase : base ∈ [4, 22, 40]) (hi : i < 18) :
    (canonFrame m).read (base + i) = if i < strnlen m base 17 then m.read (base + i) else 0 := by
  rw [read_canonFrame]
  simp only [List.mem_cons, List.not_mem_nil, or_false] at hbase
  rcases hbase with rfl | rfl | rfl
  · rw [if_neg (by omega), if_pos (by omega)]
    simp only [Nat.add_lt_add_iff_left]
  · rw [if_neg (by omega), if_neg (by omega), if_pos (by omega)]
    simp only [Nat.add_lt_add_iff_left]
  · rw [if_neg (by omega), if_neg (by omega), if_neg (by omega), if_pos (by omega)]
    simp only [Nat.add_lt_add_iff_left]

/-- The payload field of the canonical frame: a Data frame's string, then zeros. -/
theorem read_canonFrame_payload (m : Memory) {i : Nat} (hi : i < 512) :
    (canonFrame m).read (62 + i) = if m.read 0 = 0x10 ∧ i < strnlen m 62 511 then m.read (62 + i) else 0 := by
  rw [read_canonFrame, if_neg (by omega), if_neg (by omega), if_neg (by omega), if_neg (by omega), if_pos (by omega)]
  simp only [Nat.add_lt_add_iff_left]

theorem read_canonFrame_beyond (m : Memory) {a : Nat} (h : 574 ≤ a) : (canonFrame m).read a = m.read a := by
  rw [read_canonFrame, if_neg (by omega), if_neg (by omega), if_neg (by omega), if_neg (by omega), if_neg (by omega)]

/-- An offset of the buffer outside the integrity field is the type's or lies in a field that `FR.ENCODE` rewrites. -/
theorem field_of_offset {a : Nat} (h : a < 58 ∨ (62 ≤ a ∧ a < 574)) :
    a = 0 ∨ (1 ≤ a ∧ a ≤ 3) ∨ (∃ base ∈ [4, 22, 40], ∃ i < 18, a = base + i) ∨ ∃ i < 512, a = 62 + i := by
  have at_base : ∀ base ∈ [4, 22, 40], base ≤ a → a < base + 18 → ∃ base ∈ [4, 22, 40], ∃ i < 18, a = base + i :=
    fun base hb hlo hhi => ⟨base, hb, a - base, by omega, by omega⟩
  by_cases h3 : a ≤ 3
  · omega
  by_cases h22 : a < 22
  · exact .inr (.inr (.inl (at_base 4 (by decide) (by omega) (by omega))))
  by_cases h40 : a < 40
  · exact .inr (.inr (.inl (at_base 22 (by decide) (by omega) (by omega))))
  by_cases h58 : a < 58
  · exact .inr (.inr (.inl (at_base 40 (by decide) (by omega) (by omega))))
  · exact .inr (.inr (.inr ⟨a - 62, by omega, by omega⟩))

/-- Settles O21: each field of the canonical frame, sealed. -/
theorem frEncodeLeavesTheCanonicalFrame : Obligations.FrEncodeLeavesTheCanonicalFrame := by
  intro s
  refine ⟨(canonFrame s.buf).sealed, ?_, ?_, fun a h1 h3 => ?_, fun base hbase i hi => ?_, fun i hi => ?_, fun k hk => ?_,
    fun a ha => ?_⟩
  · rw [exec_frEncode, digestEngine_sealed, frameDigest_sealed, payloadLen_sealed]
  · rw [read_sealed_outside _ (by omega), read_canonFrame_type]
  · rw [read_sealed_outside _ (by omega), read_canonFrame_zeroed _ h1 h3]
  · have hend : base ≤ 40 := by
      revert base
      decide
    rw [read_sealed_outside _ (by omega), read_canonFrame_address _ hbase hi]
  · rw [read_sealed_outside _ (by omega), read_canonFrame_payload _ hi]
  · rw [read_sealed_integrity _ hk, frameDigest_sealed]
  · rw [read_sealed_outside _ (by omega), read_canonFrame_beyond _ ha]

/-- The subtype byte of the canonical frame is zero, so its digest is the type byte's checksum (R174). -/
theorem frameDigest_canonFrame (m : Memory) : frameDigest true (canonFrame m) = checksum true [m.read 0] := by
  rw [frameDigest_of_zero_subtype (read_canonFrame_zeroed m (by decide) (by decide)), read_canonFrame_type]

theorem digestEngine_canonFrame_cnt (m : Memory) :
    (digestEngine true (canonFrame m)).cnt = if m.read 0 = 0 then 0 else 1 := by
  rw [digestEngine_cnt_of_zero_subtype (read_canonFrame_zeroed m (by decide) (by decide)), read_canonFrame_type]

/-- Settles O22: the digest, its bytes and the count are those of the type byte alone. -/
theorem encodedIntegrityTable : Obligations.EncodedIntegrityTable := by
  refine fun s => ⟨_, exec_frEncode s, memRead_sealed _, ?_⟩
  simp only [bytes_sealed, frameDigest_canonFrame, digestEngine_canonFrame_cnt, true_and]
  refine ⟨fun h => ?_, fun h => ?_, fun h => ?_, fun h => ?_, fun h => if_neg h, fun h => ?_⟩ <;>
    rw [h] <;> decide

/-- The canonical frames of equal inputs agree outside the integrity field. -/
theorem read_canonFrame_congr {m m' : Memory} (h : sameEncodeInputs m m') {a : Nat} (ha : a < 58 ∨ (62 ≤ a ∧ a < 574)) :
    (canonFrame m).read a = (canonFrame m').read a := by
  obtain ⟨htype, haddress, hpayload⟩ := h
  rcases field_of_offset ha with rfl | ⟨h1, h3⟩ | ⟨base, hbase, i, hi, rfl⟩ | ⟨i, hi, rfl⟩
  · rw [read_canonFrame_type, read_canonFrame_type]
    exact htype
  · rw [read_canonFrame_zeroed m h1 h3, read_canonFrame_zeroed m' h1 h3]
  · obtain ⟨hlen, hread⟩ := fieldString_congr m m' base 17 (haddress base hbase)
    rw [read_canonFrame_address m hbase hi, read_canonFrame_address m' hbase hi, ← hlen]
    exact ite_congr rfl (hread i) fun _ => rfl
  · rw [read_canonFrame_payload m hi, read_canonFrame_payload m' hi, ← show m.read 0 = m'.read 0 from htype]
    by_cases hdata : m.read 0 = 0x10
    · obtain ⟨hlen, hread⟩ := fieldString_congr m m' 62 511 (hpayload hdata)
      rw [← hlen]
      exact ite_congr rfl (fun hc => hread i hc.2) fun _ => rfl
    · rw [if_neg fun hc => hdata hc.1, if_neg fun hc => hdata hc.1]

/-- Settles O23: equal inputs give canonical frames that agree, and equal integrity words. -/
theorem encodeDependsOnItsInputsAlone : Obligations.EncodeDependsOnItsInputsAlone := fun s s' h =>
  ⟨_, _, exec_frEncode s, exec_frEncode s', bytes_congr _ _ 0 574 fun k hk =>
    read_sealed_congr (fun _ => read_canonFrame_congr h) (by omega)⟩

/-! ### `FR.DECODE` (R190, R191) -/

/-- The code of each valid type byte. -/
theorem okCode_eq_some_iff (b : Byte) (code : ResultCode) :
    okCode (frameTypeOf b) = some code ↔
      (b = 0x00 ∧ code = .okAssoc) ∨ (b = 0x01 ∧ code = .okProbe) ∨ (b = 0x02 ∧ code = .okRts) ∨
        (b = 0x10 ∧ code = .okData) := by
  by_cases h0 : b = 0x00
  · subst h0; simp [frameTypeOf, okCode, eq_comm]
  by_cases h1 : b = 0x01
  · subst h1; simp [frameTypeOf, okCode, eq_comm]
  by_cases h2 : b = 0x02
  · subst h2; simp [frameTypeOf, okCode, eq_comm]
  by_cases h10 : b = 0x10
  · subst h10; simp [frameTypeOf, okCode, eq_comm]
  rw [frameTypeOf, if_neg h0, if_neg h1, if_neg h2, if_neg h10]
  simp only [okCode, h0, h1, h2, h10, false_and, or_false, reduceCtorEq]

/-- The valid types are the four that have a code. -/
theorem exists_okCode_iff (b : Byte) :
    (∃ code, okCode (frameTypeOf b) = some code) ↔ b ∈ [0x00#8, 0x01#8, 0x02#8, 0x10#8] := by
  simp [okCode_eq_some_iff, exists_or]

theorem okCode_eq_none_iff (b : Byte) : okCode (frameTypeOf b) = none ↔ b ∉ [0x00#8, 0x01#8, 0x02#8, 0x10#8] := by
  rw [← exists_okCode_iff, ← Option.ne_none_iff_exists', not_not]

theorem rxlen_ne_zero {n : BitVec 16} (hn : n ≠ 0) : n.toNat ≠ 0 := fun h => hn (BitVec.eq_of_toNat_eq h)

/-- The zero fill of a nonempty reception leaves the type byte. -/
theorem read_zeroFill_type {n : BitVec 16} (hn : n ≠ 0) (m : Memory) : (zeroFill n.toNat m).read 0 = m.read 0 := by
  have hpos := rxlen_ne_zero hn
  rw [read_zeroFill, if_neg (by omega)]

theorem exec_frDecode_empty (s : State) :
    exec (.frDecode 0) s = .next { s with short := false, long := false, result := .empty, pend := none } :=
  exec_eq_performed (.frDecode 0) s

theorem exec_frDecode {n : BitVec 16} (hn : n ≠ 0) (s : State) :
    exec (.frDecode n) s = .next (State.validate true { s with
      short := decide (n.toNat < 574)
      long := decide (574 < n.toNat)
      buf := zeroFill n.toNat s.buf }).complete := by
  rw [exec_eq_performed, performed, zeroStop_eq, State.decodeFrame, if_neg (rxlen_ne_zero hn)]

theorem exec_frDecode_invalid {n : BitVec 16} (hn : n ≠ 0) {s : State} (htype : okCode (frameTypeOf (s.buf.read 0)) = none) :
    exec (.frDecode n) s = .next { s with
      short := decide (n.toNat < 574)
      long := decide (574 < n.toNat)
      result := .errType
      buf := zeroFill n.toNat s.buf
      pend := none } := by
  rw [exec_frDecode hn, State.validate, read_zeroFill_type hn, htype]
  dsimp only [State.complete]

theorem exec_frDecode_valid {n : BitVec 16} (hn : n ≠ 0) {s : State} {code : ResultCode}
    (htype : okCode (frameTypeOf (s.buf.read 0)) = some code) :
    exec (.frDecode n) s = .next { s with
      short := decide (n.toNat < 574)
      long := decide (574 < n.toNat)
      buf := zeroFill n.toNat s.buf
      eng := digestEngine true (zeroFill n.toNat s.buf)
      calcReg := frameDigest true (zeroFill n.toNat s.buf)
      rxfcs := memRead (zeroFill n.toNat s.buf) 58 4
      plen := BitVec.ofNat 10 (payloadLen (zeroFill n.toNat s.buf))
      result := if frameDigest true (zeroFill n.toNat s.buf) = memRead (zeroFill n.toNat s.buf) 58 4 then code else .errFcs
      pend := none } := by
  rw [exec_frDecode hn, State.validate, read_zeroFill_type hn, htype]
  dsimp only [State.takeDigest, State.complete]

/-- A whole frame of a valid type whose stored integrity is its digest passes with its code. -/
theorem exec_frDecode_correct {s : State} {code : ResultCode} (htype : okCode (frameTypeOf (s.buf.read 0)) = some code)
    (hfcs : memRead s.buf 58 4 = frameDigest true s.buf) :
    ∃ u, exec (.frDecode 574) s = .next u ∧ u.result = code ∧ u.calcReg = frameDigest true s.buf ∧
      u.rxfcs = frameDigest true s.buf ∧ u.plen = BitVec.ofNat 10 (payloadLen s.buf) := by
  have hfill : zeroFill (574 : BitVec 16).toNat s.buf = s.buf := zeroFill_of_le _ _ (by decide)
  refine ⟨_, exec_frDecode_valid (by decide) htype, ?_⟩
  dsimp only
  rw [hfill, hfcs]
  exact ⟨if_pos rfl, rfl, rfl, rfl⟩

/-- Settles O26. -/
theorem frDecodeOfNothingIsEmpty : Obligations.FrDecodeOfNothingIsEmpty := exec_frDecode_empty

/-- Settles O27: the type check, on the zero-filled buffer, and the empty reception. -/
theorem typeCheckPrecedesIntegrityCheck : Obligations.TypeCheckPrecedesIntegrityCheck :=
  ⟨fun s n hn htype =>
    ⟨_, exec_frDecode_invalid hn ((okCode_eq_none_iff _).mpr htype), read_zeroFill n.toNat s.buf⟩,
    fun s => ⟨_, exec_frDecode_empty s, rfl, rfl⟩⟩

/-- Settles O28: both checks, on the zero-filled buffer. -/
theorem frDecodeChecksTheIntegrity : Obligations.FrDecodeChecksTheIntegrity := fun s n code hn htype =>
  ⟨_, exec_frDecode_valid hn ((okCode_eq_some_iff _ code).mpr htype), read_zeroFill n.toNat s.buf⟩

/-! ### The operations together (R170, R176, R182) -/

/-- A sealed canonical frame decodes to its type's code, or reports the invalid type. -/
theorem decode_of_encoded {s t' : State} (hbuf : t'.buf = (canonFrame s.buf).sealed) :
    ∃ u, exec (.frDecode 574) t' = .next u ∧
      (∀ code, okCode (frameTypeOf (s.buf.read 0)) = some code → u.result = code ∧ u.calcReg = u.rxfcs) ∧
      (okCode (frameTypeOf (s.buf.read 0)) = none → u.result = .errType) := by
  have htype : t'.buf.read 0 = s.buf.read 0 := by
    rw [hbuf, read_sealed_outside _ (by omega), read_canonFrame_type]
  have hfcs : memRead t'.buf 58 4 = frameDigest true t'.buf := by
    rw [hbuf, memRead_sealed, frameDigest_sealed]
  rw [← htype]
  cases hcode : okCode (frameTypeOf (t'.buf.read 0)) with
  | none => exact ⟨_, exec_frDecode_invalid (by decide) hcode, nofun, fun _ => rfl⟩
  | some code =>
    obtain ⟨u, hexec, hresult, hcalc, hrx, -⟩ := exec_frDecode_correct hcode hfcs
    refine ⟨u, hexec, fun code' h => ?_, nofun⟩
    rw [hresult, hcalc, hrx]
    exact ⟨Option.some.inj h, rfl⟩

/-- Settles O29, for each of the four codes and for no code. -/
theorem encodeThenDecodeRoundTrip : Obligations.EncodeThenDecodeRoundTrip := by
  refine fun s => ⟨_, exec_frEncode s, fun t' hbuf => ?_⟩
  obtain ⟨u, hexec, hvalid, hinvalid⟩ := decode_of_encoded hbuf
  refine ⟨u, hexec, fun h => hvalid _ ?_, fun h => hvalid _ ?_, fun h => hvalid _ ?_, fun h => hvalid _ ?_,
    fun h => hinvalid ((okCode_eq_none_iff _).mpr h)⟩ <;>
    rw [h] <;> rfl

/-- Settles O30: a cleared buffer has a zero type, whose digest is 0, and four zero integrity bytes. -/
theorem clearedBufferDecodesAsAssociation : Obligations.ClearedBufferDecodesAsAssociation := by
  intro s
  have htype := read_cleared s.buf (a := 0) (by omega)
  have hdigest : frameDigest true (s.buf.zero 0 574) = 0 := frameDigest_of_zero_type htype
  obtain ⟨u, hexec, hresult, hcalc, hrx, hplen⟩ :=
    exec_frDecode_correct (s := { s with buf := s.buf.zero 0 574, pend := none }) (code := .okAssoc)
      (by rw [htype]; rfl) ((memRead_cleared_integrity s.buf).trans hdigest.symm)
  refine ⟨_, u, exec_frClear s, hexec, hresult, hcalc.trans hdigest, hrx.trans hdigest, ?_⟩
  rw [hplen, payloadLen_cleared]
  rfl

/-- Settles O31: each operation stores the engine of the buffer's digest and the digest itself; sealing does not change them. -/
theorem frameOperationsOverwriteTheEngine : Obligations.FrameOperationsOverwriteTheEngine := by
  intro s t hrun
  suffices h : t.eng = digestEngine true t.buf ∧ t.calcReg = frameDigest true t.buf by
    obtain ⟨heng, hcalc⟩ := h
    exact ⟨heng, (congrArg Engine.digest heng).trans hcalc.symm⟩
  rcases hrun with hrun | hrun | ⟨n, hn, htype, hrun⟩
  · rw [exec_frEncode, Host.Outcome.next.injEq] at hrun
    subst hrun
    simp only [digestEngine_sealed, frameDigest_sealed, and_self]
  · rw [exec_frSeal, Host.Outcome.next.injEq] at hrun
    subst hrun
    simp only [digestEngine_sealed, frameDigest_sealed, and_self]
  · obtain ⟨code, hcode⟩ := (exists_okCode_iff _).mpr htype
    rw [exec_frDecode_valid hn hcode, Host.Outcome.next.injEq] at hrun
    subst hrun
    simp only [and_self]

end Sys2Proof.Machine
end

section
/-! The system operations' statements (42_system.md): `NOP` and the `STATUS` write. -/

namespace Sys2Proof.Machine

/-- Settles O32: `NOP` is nothing but the completion with which every command ends. -/
theorem nopOnlyCompletes : Obligations.NopOnlyCompletes := exec_eq_performed .nop

/-- Of the accesses that begin in the four bytes of `STATUS`, only the aligned 32-bit one is legal. -/
theorem legal_status_iff {off : Offset} (n : Nat) (op : BusOp) (hlo : 0x008 ≤ off.toNat) (hhi : off.toNat < 0x00C) :
    Access.legal ⟨off, n, op⟩ = true ↔ off = 0x008 ∧ n = 4 := by
  have haligned : off = 0x008 ↔ off.toNat % 4 = 0 := by
    bv_omega
  rw [legal_outside off n op (by omega), Bool.and_eq_true, beq_iff_eq, beq_iff_eq, haligned, and_comm]

/-- Settles O33: a legal write clears each of the four bits by its own data bit, at any time; no other write there is legal. -/
theorem statusWriteClearsErrors : Obligations.StatusWriteClearsErrors := by
  constructor
  case left =>
    intro s v
    simp only [busAccess_statusWrite, State.clearErrors, State.respond, Bool.if_false_left, Bool.decide_eq_true,
      Bool.and_comm]
  case right =>
    intro s off v n hlo hhi hother
    have hillegal : Access.legal ⟨off, n, .write v⟩ = false :=
      Bool.eq_false_iff.mpr fun hl => hother ((legal_status_iff n _ hlo hhi).mp hl)
    exact (illegalAccessesAreNotPerformed _ s hillegal).2 v rfl

end Sys2Proof.Machine
end

section
/-! The exceptions' statements (60_exceptions.md): the range check, which error an access raises and what clears one, that a set
error influences no later step, and that the block never stops. -/

namespace Sys2Proof.Machine

/-! ### The range check (R243) -/

/-- Every command but `CK.SPAN` passes the operand check, whatever its operand. -/
theorem wf_of_ne_ckSpan {i : Instr} (h : ∀ start len, i ≠ .ckSpan start len) : i.wf = true := by
  cases i with
  | ckSpan start len => exact absurd rfl (h start len)
  | nop | ckInit | ckFeed | frClear | frEncode | frSeal | frDecode => rfl

theorem wf_ckSpan_eq_false {start len : BitVec 10} (h : 574 < start.toNat + len.toNat) :
    (Instr.ckSpan start len).wf = false :=
  decide_eq_false (Nat.not_le.mpr h)

/-- Settles O43: an encoded command decodes to itself, so its operand check alone decides between refusal and acceptance. -/
theorem onlySpanHasARangeCheck : Obligations.OnlySpanHasARangeCheck := by
  refine ⟨fun s start len hp hrange => ?refused, fun s i hp hi => ?accepted⟩
  case refused =>
    rw [busAccess_cmdWrite, issue_outOfRange hp (decodeOfEncodeIsTheCommand _) (wf_ckSpan_eq_false hrange)]
    rfl
  case accepted =>
    rw [busAccess_cmdWrite, issue_accepted s _ i hp (decodeOfEncodeIsTheCommand i) (wf_of_ne_ckSpan hi)]
    rfl

/-! ### The error bits after each update -/

/-- The four fields behind `State.error`. -/
theorem error_congr {s t : State} (hcmd : t.errCmd = s.errCmd) (hrange : t.errRange = s.errRange)
    (hbusy : t.errBusy = s.errBusy) (hbus : t.errBus = s.errBus) (e : ErrorBit) : t.error e = s.error e := by
  cases e with
  | cmd => exact hcmd
  | range => exact hrange
  | busy => exact hbusy
  | bus => exact hbus

@[simp] theorem respond_error (s : State) (d : Option Word) (b : Bool) (e : ErrorBit) :
    (s.respond d b).error e = s.error e := error_congr rfl rfl rfl rfl e

@[simp] theorem complete_error (s : State) (e : ErrorBit) : s.complete.error e = s.error e :=
  error_congr rfl rfl rfl rfl e

@[simp] theorem clearErrors_error (s : State) (v : Word) (e : ErrorBit) :
    (s.clearErrors v).error e = (s.error e && !v.getLsbD e.bit) := by
  cases e <;> rfl

@[simp] theorem raise_error (s : State) (e' e : ErrorBit) : (s.raise e').error e = (s.error e || e' == e) := by
  cases e with
  | cmd => exact raise_errCmd s e'
  | range => exact raise_errRange s e'
  | busy => exact raise_errBusy s e'
  | bus => exact raise_errBus s e'

/-! ### Which error an access raises (R249) -/

/-- The error a legal write of `v` to a target raises: the part of R249's order below `ERR_BUS`. -/
def writeError (s : State) (v : Word) (t : Target) : Option ErrorBit :=
  if s.busy && heldWhileBusy t then some .busy else if t = .reg .cmd then commandError v else none

theorem firstError_illegal {s : State} {a : Access} (hl : a.legal = false) : firstError s a = some .bus := by
  simp [firstError, hl]

theorem firstError_read {s : State} {a : Access} (hl : a.legal = true) (hop : a.op = .read) : firstError s a = none := by
  simp [firstError, hl, hop]

theorem firstError_write {s : State} {a : Access} {v : Word} (hl : a.legal = true) (hop : a.op = .write v) :
    firstError s a = writeError s v (targetAt a.offset) := by
  simp [firstError, writeError, hl, hop]

/-- The issue of a word raises the error named for it, or none. -/
theorem issue_error (s : State) (v : Word) :
    (∃ e, writeError s v (.reg .cmd) = some e ∧ issue v s = s.raise e) ∨
    (writeError s v (.reg .cmd) = none ∧ ∀ e, (issue v s).error e = s.error e) := by
  cases hb : s.busy with
  | true => exact .inl ⟨.busy, by simp [writeError, hb, heldWhileBusy], issue_busy v hb⟩
  | false =>
    have hp := (busy_eq_false_iff s).mp hb
    have herr : writeError s v (.reg .cmd) = commandError v := by simp [writeError, hb]
    rw [herr, commandError]
    cases hd : decode v with
    | error _ => exact .inl ⟨.cmd, rfl, issue_illegal hp hd⟩
    | ok i =>
      cases hwf : i.wf with
      | false => exact .inl ⟨.range, by simp [hwf], issue_outOfRange hp hd hwf⟩
      | true =>
        rw [issue_accepted s v i hp hd hwf]
        exact .inr ⟨by simp [hwf], error_congr rfl rfl rfl rfl⟩

/-- A performed write is refused with the error named for it, or sets no error bit. -/
theorem performWrite_error (s : State) (n : Nat) (v : Word) (t : Target) :
    (∃ e, writeError s v t = some e ∧ performWrite s n v t = s.raise e) ∨
    (writeError s v t = none ∧ ∀ e, (performWrite s n v t).error e = true → s.error e = true) := by
  cases t with
  | frame k =>
    cases hb : s.busy with
    | true => exact .inl ⟨.busy, by simp [writeError, hb, heldWhileBusy], if_pos hb⟩
    | false =>
      rw [performWrite_frame_idle ((busy_eq_false_iff s).mp hb)]
      exact .inr ⟨by simp [writeError, hb], fun e => (error_congr rfl rfl rfl rfl e).trans⟩
  | reserved => exact .inr ⟨by simp [writeError, heldWhileBusy], fun _ => id⟩
  | reg r =>
    cases r with
    | cmd => exact (issue_error s v).imp id fun ⟨hnone, hsame⟩ => ⟨hnone, fun e => (hsame e).symm.trans⟩
    | ctrl =>
      refine .inr ⟨by simp [writeError, heldWhileBusy], fun e h => ?_⟩
      rw [performWrite] at h
      split at h
      · cases e <;> cases h
      · exact h
    | status =>
      refine .inr ⟨by simp [writeError, heldWhileBusy], fun e h => ?_⟩
      rw [performWrite, clearErrors_error, Bool.and_eq_true] at h
      exact h.1
    | id | acc | digest | cnt | calcReg | rxfcs | plen | param =>
      exact .inr ⟨by simp [writeError, heldWhileBusy], fun _ => id⟩

/-- An access is refused with the first error that applies and has no other effect, or sets no error bit. -/
theorem busAccess_error (s : State) (a : Access) :
    (∃ e d b, firstError s a = some e ∧ busAccess a s = (s.raise e).respond d b) ∨
    (firstError s a = none ∧ ∀ e, (busAccess a s).error e = true → s.error e = true) := by
  rcases busAccess_cases a s with ⟨hl, d, h⟩ | ⟨hl, hop, h⟩ | ⟨hl, v, hop, h⟩
  · exact .inl ⟨.bus, d, true, firstError_illegal hl, h⟩
  · refine .inr ⟨firstError_read hl hop, fun e he => ?_⟩
    rw [h, respond_error] at he
    exact (error_congr rfl rfl rfl rfl e).trans he
  · rw [firstError_write hl hop, h]
    rcases performWrite_error s a.size v (targetAt a.offset) with ⟨e, he, hw⟩ | ⟨hnone, hsets⟩
    · exact .inl ⟨e, none, false, he, by rw [hw]⟩
    · exact .inr ⟨hnone, fun e he => hsets e ((respond_error _ _ _ e).symm.trans he)⟩

/-! ### What sets or clears an error bit (R29, R250, R251) -/

/-- A command the issue accepts leaves the error bits alone. -/
theorem performed_error {i : Instr} (s : State) (hwf : i.wf = true) (e : ErrorBit) :
    (performed i s).error e = s.error e := by
  obtain ⟨-, -, -, hcmd, hbusy, hbus, hrange⟩ := performed_frame i s
  exact error_congr hcmd (hrange hwf) hbusy hbus e

/-- Performing the one command that fails the operand check raises `ERR_RANGE` (log 11). -/
theorem performed_outOfRange {i : Instr} (s : State) (hwf : i.wf = false) : performed i s = s.raise .range := by
  cases i with
  | ckSpan start len => exact if_neg (of_decide_eq_false hwf)
  | nop | ckInit | ckFeed | frClear | frEncode | frSeal | frDecode => cases hwf

/-- No command clears an error bit. -/
theorem performed_error_of_error {i : Instr} {s : State} {e : ErrorBit} (h : s.error e = true) :
    (performed i s).error e = true := by
  cases hwf : i.wf with
  | true => rw [performed_error s hwf, h]
  | false => rw [performed_outOfRange s hwf, raise_error, h, Bool.true_or]

/-- An access that clears an error bit is a `STATUS` write with a 1 in its position or a soft reset. -/
theorem busAccess_clears_error {a : Access} {s : State} {e : ErrorBit} (hset : s.error e = true)
    (hclear : (busAccess a s).error e = false) :
    ∃ v, (a = statusWrite v ∧ v.getLsbD e.bit = true) ∨ (a = ctrlWrite v ∧ v.getLsbD 0 = true) := by
  have kept {u : State} (hu : u.error e = false) : u.error e ≠ s.error e := by simp [hu, hset]
  rcases busAccess_cases a s with ⟨-, d, h⟩ | ⟨-, -, h⟩ | ⟨hl, v, hop, h⟩ <;> rw [h, respond_error] at hclear
  · rw [raise_error, hset, Bool.true_or] at hclear
    cases hclear
  · exact absurd (error_congr rfl rfl rfl rfl e) (kept hclear)
  · rcases performWrite_cases s a.size v (targetAt a.offset) with
      ⟨e', hw⟩ | ⟨-, k, -, hw⟩ | ⟨-, -, -, hw⟩ | ⟨ht, hv, -⟩ | ⟨ht, hw⟩ | hw
    · rw [hw, raise_error, hset, Bool.true_or] at hclear
      cases hclear
    · exact absurd (by rw [hw]; exact error_congr rfl rfl rfl rfl e) (kept hclear)
    · exact absurd (by rw [hw]; exact error_congr rfl rfl rfl rfl e) (kept hclear)
    · exact ⟨v, .inr ⟨eq_ctrlWrite a v hl hop ht, hv⟩⟩
    · rw [hw, clearErrors_error, hset] at hclear
      exact ⟨v, .inl ⟨eq_statusWrite a v hl hop ht, by simpa using hclear⟩⟩
    · exact absurd (by rw [hw]) (kept hclear)

/-- Every legal access, one that raises an error too, gets the normal answer (log 14). -/
theorem busAccess_legal_resp {a : Access} (s : State) (hl : a.legal = true) :
    ∃ d, (busAccess a s).resp = some ⟨d, false⟩ := by
  rcases busAccess_cases a s with ⟨hl', -⟩ | ⟨-, -, h⟩ | ⟨-, v, -, h⟩
  · cases hl.symm.trans hl'
  · exact ⟨_, by rw [h, respond_resp]⟩
  · exact ⟨_, by rw [h, respond_resp]⟩

/-- Settles O44, from the two outcomes of an access and from what each turn does to a set error bit. -/
theorem oneErrorInPriorityOrder : Obligations.OneErrorInPriorityOrder := by
  refine ⟨fun s a e hfirst => ?raises, fun s a hnone => ?raisesNone, fun i s t hwf hexec e => ?completes,
    fun s t e hstep hset hclear => ?clears, fun s a => busAccess_legal_resp s⟩
  case raises =>
    rcases busAccess_error s a with ⟨e', d, b, he, h⟩ | ⟨hnone, -⟩
    · obtain rfl : e' = e := Option.some.inj (he.symm.trans hfirst)
      rw [h, ← raise_resp s e']
      rfl
    · cases hfirst.symm.trans hnone
  case raisesNone =>
    rcases busAccess_error s a with ⟨e, -, -, he, -⟩ | ⟨-, hsets⟩
    · cases he.symm.trans hnone
    · exact hsets
  case completes =>
    rw [(exec_next_iff i s t).mp hexec, complete_error, performed_error s hwf]
  case clears =>
    have kept (rest : List Turn) : ({ s with agenda := rest } : State).error e = true :=
      (error_congr rfl rfl rfl rfl e).trans hset
    rcases step_cases s t hstep with ⟨-, -, rfl⟩ | ⟨-, w, i, -, -, rfl⟩ | ⟨a, rest, ha, rfl⟩
    · cases (kept _).symm.trans hclear
    · rw [complete_error, performed_error_of_error (kept _)] at hclear
      cases hclear
    · obtain ⟨v, ⟨rfl, hv⟩ | ⟨rfl, hv⟩⟩ := busAccess_clears_error (kept rest) hclear
      · exact ⟨v, rest, .inl ⟨ha, hv⟩⟩
      · exact ⟨v, rest, .inr ⟨ha, hv⟩⟩

/-! ### A set error influences nothing (R252) -/

/-- An update that, but for the error bits and the response, does the same with any error bits and response. -/
def IgnoresErrors (f : State → State) : Prop := ∀ s : State, (f s.lessErrors).lessErrors = (f s).lessErrors

theorem IgnoresErrors.congr {f : State → State} (hf : IgnoresErrors f) {s s' : State}
    (h : s.lessErrors = s'.lessErrors) : (f s).lessErrors = (f s').lessErrors := by
  rw [← hf s, h, hf s']

theorem validate_ignoresErrors (zs : Bool) : IgnoresErrors (State.validate zs) := by
  intro s
  simp only [State.validate, lessErrors_buf]
  cases okCode (frameTypeOf (s.buf.read typeOff)) <;> rfl

theorem decodeFrame_ignoresErrors (zs : Bool) (n : Nat) : IgnoresErrors (State.decodeFrame zs n) := by
  intro s
  unfold State.decodeFrame
  split
  · rfl
  · exact (validate_ignoresErrors zs).congr rfl

/-- No command looks at an error bit. -/
theorem performed_ignoresErrors (i : Instr) : IgnoresErrors (performed i) := by
  intro s
  cases i with
  | ckSpan start len =>
    simp only [performed]
    split <;> rfl
  | frDecode n => exact decodeFrame_ignoresErrors _ _ s
  | nop | ckInit | ckFeed | frClear | frEncode | frSeal => rfl

theorem complete_ignoresErrors : IgnoresErrors State.complete := fun _ => rfl

/-- The buffer an abort leaves does not depend on the error bits. -/
theorem bufferAfterReset_lessErrors (s : State) : bufferAfterReset s.lessErrors = bufferAfterReset s := by
  unfold bufferAfterReset
  rw [lessErrors_pend]
  cases s.pend with
  | none => rfl
  | some w =>
    have hafter : bufferAfter s.lessErrors w = bufferAfter s w := by
      cases hd : decode w with
      | error e => simp only [bufferAfter, hd, lessErrors_buf]
      | ok i =>
        rw [bufferAfter_ok _ _ i hd, bufferAfter_ok _ _ i hd]
        have hbuf := congrArg State.buf (performed_ignoresErrors i s)
        exact hbuf
    simp only [hafter, lessErrors_buf, lessErrors_draws]

theorem softReset_ignoresErrors : IgnoresErrors State.softReset := by
  intro s
  ext <;> simp [bufferAfterReset_lessErrors]

theorem issue_ignoresErrors (w : Word) : IgnoresErrors (issue w) := by
  intro s
  have hb : s.lessErrors.busy = s.busy := rfl
  unfold issue
  rw [hb]
  split
  · rfl
  · cases decode w with
    | error e => rfl
    | ok i =>
      dsimp only
      split <;> rfl

theorem performWrite_ignoresErrors (n : Nat) (v : Word) (t : Target) : IgnoresErrors fun s => performWrite s n v t := by
  intro s
  have hb : s.lessErrors.busy = s.busy := rfl
  cases t with
  | frame k =>
    simp only [performWrite, hb]
    split <;> rfl
  | reserved => rfl
  | reg r =>
    cases r with
    | cmd => exact issue_ignoresErrors v s
    | ctrl =>
      simp only [performWrite]
      split
      · exact softReset_ignoresErrors s
      · rfl
    | status | id | acc | digest | cnt | calcReg | rxfcs | plen | param => rfl

/-- No access is blocked or changed by an error bit; a read of `STATUS` shows it in the response only. -/
theorem busAccess_ignoresErrors (a : Access) : IgnoresErrors (busAccess a) := by
  intro s
  unfold busAccess
  split
  · unfold legalAccess
    cases a.op with
    | read => rfl
    | write v => exact performWrite_ignoresErrors a.size v (targetAt a.offset) s
  · unfold illegalAccess
    cases a.op <;> rfl

/-- Settles O45: the same turn is taken, and neither a command nor an access looks at an error bit. -/
theorem errorsBlockNothing : Obligations.ErrorsBlockNothing := by
  intro s s' t h hstep
  have hagenda := congrArg State.agenda h
  have hpend := congrArg State.pend h
  rw [lessErrors_agenda, lessErrors_agenda] at hagenda
  rw [lessErrors_pend, lessErrors_pend] at hpend
  have taken (rest : List Turn) :
      State.lessErrors { s with agenda := rest } = State.lessErrors { s' with agenda := rest } :=
    congrArg (fun u : State => { u with agenda := rest }) h
  obtain ⟨command, idle, host⟩ := stepRunsThePendingCommand
  rcases step_cases s t hstep with ⟨hnext, hp, rfl⟩ | ⟨hnext, w, i, hp, hd, rfl⟩ | ⟨a, rest, ha, rfl⟩
  · rw [hagenda] at hnext ⊢
    exact ⟨_, idle s' hnext (hpend ▸ hp), taken _⟩
  · rw [hagenda] at hnext ⊢
    refine ⟨_, (command s' w i hnext (hpend ▸ hp) hd).trans (exec_eq_performed i _), ?_⟩
    exact complete_ignoresErrors.congr ((performed_ignoresErrors i).congr (taken _))
  · exact ⟨_, host s' a rest (hagenda ▸ ha), (busAccess_ignoresErrors a).congr (taken rest)⟩

/-! ### The block never stops (R240) -/

theorem engineIsNext_or_host (turns : List Turn) :
    engineIsNext turns = true ∨ ∃ a rest, turns = .host a :: rest := by
  cases turns with
  | nil => exact .inl rfl
  | cons turn rest =>
    cases turn with
    | engine => exact .inl rfl
    | host a => exact .inr ⟨a, rest, rfl⟩

/-- A pending word the issue accepted is a command. -/
theorem decode_of_pendingAccepted {s : State} {w : Word} (h : s.pendingAccepted = true) (hp : s.pend = some w) :
    ∃ i, decode w = .ok i := by
  rw [State.pendingAccepted, hp] at h
  cases hd : decode w with
  | ok i => exact ⟨i, rfl⟩
  | error e => simp [hd] at h

/-- Settles O59: the one fault needs a pending word that is no command, which the invariant shuts out. -/
theorem neverStops : Obligations.NeverStops := by
  rintro s ⟨-, -, haccepted, -⟩
  obtain ⟨command, idle, host⟩ := stepRunsThePendingCommand
  rcases engineIsNext_or_host s.agenda with hnext | ⟨a, rest, ha⟩
  · cases hp : s.pend with
    | none => exact ⟨_, idle s hnext hp⟩
    | some w =>
      obtain ⟨i, hd⟩ := decode_of_pendingAccepted haccepted hp
      exact ⟨_, (command s w i hnext hp hd).trans (exec_eq_performed i _)⟩
  · exact ⟨_, host s a rest ha⟩

end Sys2Proof.Machine
end

section
/-! The statements on reset and hazards (70_reset_and_hazards.md): the values after a power-on and a soft reset, what an abort
leaves in the buffer, accesses while a command is pending, and that an accepted command is completed. -/

namespace Sys2Proof.Machine

/-! ### A soft reset (R222, R272, R273) -/

theorem busAccess_softReset (s : State) {v : Word} (hv : v.getLsbD 0 = true) :
    busAccess (ctrlWrite v) s = s.softReset.respond none false := by
  rw [busAccess_ctrlWrite, if_pos hv]

/-- After a soft reset every register, `STATUS` among them, reads as after a power-on reset. -/
theorem regValue_softReset (s : State) (d : Option Word) (e : Bool) (r : Reg) :
    regValue (s.softReset.respond d e) r = regValue State.reset r := by
  cases r <;> rfl

/-- With no command pending there is nothing to abort. -/
theorem bufferAfterReset_idle {s : State} (hp : s.pend = none) : bufferAfterReset s = s.buf := by
  simp only [bufferAfterReset, hp]

/-- Each byte after an abort: the pending command's, or the one before it (log 6). -/
theorem read_bufferAfterReset {s : State} {w : Word} {i : Instr} (hp : s.pend = some w) (hd : decode w = .ok i) {a : Nat}
    (ha : a < Config.frameSize) :
    (bufferAfterReset s).read a
      = if Config.abortTakesNew s.draws a then (performed i s).buf.read a else s.buf.read a := by
  simp only [bufferAfterReset, hp, bufferAfter_ok s w i hd, read_blend _ _ _ _ ha]

/-- Settles O49: the blend byte by byte; where the command writes no byte, the two choices are the same. -/
theorem abortLeavesEachByteOldOrNew : Obligations.AbortLeavesEachByteOldOrNew := by
  intro s u w v i hp hd hexec hv
  have hbuf : u.buf = (performed i s).buf := by rw [(exec_next_iff i s u).mp hexec, complete_buf]
  rw [busAccess_softReset s hv, respond_buf, softReset_buf, hbuf]
  refine ⟨regValue_softReset s none false, rfl, fun a => read_bufferAfterReset hp hd, fun hi a ha => ?_⟩
  have hkeeps : ¬ WritesBuffer i := by
    rcases hi with rfl | rfl | ⟨b, rfl⟩ | ⟨start, len, rfl⟩ <;> simp [WritesBuffer]
  rw [read_bufferAfterReset hp hd ha, performed_buf i s hkeeps, ite_self]

/-- Settles O48: the registers of the power-on reset, the turns kept, the buffer kept where nothing is aborted. -/
theorem softResetRestoresPowerOnValues : Obligations.SoftResetRestoresPowerOnValues := by
  intro s v hv
  rw [busAccess_softReset s hv]
  exact ⟨regValue_softReset s none false, rfl, rfl, rfl, bufferAfterReset_idle⟩

/-! ### An accepted command is completed (R285) -/

/-- Every step takes exactly one turn, or none where none is left. -/
theorem step_agenda {s t : State} (h : step s = .next t) : t.agenda = s.agenda.tail := by
  rcases step_cases s t h with ⟨-, -, rfl⟩ | ⟨-, w, i, -, -, rfl⟩ | ⟨a, rest, ha, rfl⟩
  · rfl
  · obtain ⟨hagenda, -⟩ := performed_frame i { s with agenda := s.agenda.tail }
    exact hagenda
  · rw [busAccess_agenda, ha, List.tail_cons]

/-- The engine's turn leaves no command pending. -/
theorem step_engine_busy {s t : State} (hnext : engineIsNext s.agenda = true) (h : step s = .next t) : t.busy = false := by
  rcases step_cases s t h with ⟨-, hp, rfl⟩ | ⟨-, w, i, -, -, rfl⟩ | ⟨a, rest, ha, -⟩
  · exact (busy_eq_false_iff _).mpr hp
  · exact complete_busy _
  · rw [ha] at hnext
    cases hnext

/-- From a state with the invariant, a step for each turn and one more empty the agenda and `PEND`. -/
theorem run_takes_every_turn (turns : List Turn) {s : State} (hturns : s.agenda = turns) (hinv : s.Inv) :
    ∃ t : State, Host.Core.run core (turns.length + 1) s = .next t ∧ t.agenda = [] ∧ t.busy = false := by
  induction turns generalizing s with
  | nil =>
    obtain ⟨t, hstep⟩ := neverStops s hinv
    refine ⟨t, run_succ core 0 s t hstep, ?_, step_engine_busy (by rw [hturns]; rfl) hstep⟩
    rw [step_agenda hstep, hturns, List.tail_nil]
  | cons turn rest ih =>
    obtain ⟨t, hstep⟩ := neverStops s hinv
    have htaken : t.agenda = rest := by rw [step_agenda hstep, hturns, List.tail_cons]
    obtain ⟨u, hrun, hu⟩ := ih htaken (everyStepKeepsTheInvariant s t hinv hstep)
    exact ⟨u, (run_succ core _ s t hstep).trans hrun, hu⟩

/-- While a command is pending, an access that is no soft reset changes only error bits, response and draw count. -/
theorem busAccess_while_busy {s : State} {a : Access} (hbusy : s.busy = true)
    (hnoReset : ∀ v, a = ctrlWrite v → v.getLsbD 0 = false) :
    ∃ d, (busAccess a s).lessErrors = State.lessErrors { s with draws := d } :=
  ⟨(busAccess a s).draws, congrArg (fun u : State => { u with draws := (busAccess a s).draws })
    (pendingCommandCannotBeChanged s a hbusy hnoReset)⟩

/-- Host turns without a soft reset leave the pending command waiting: after them the turns are taken, and but for error bits,
response and draw count nothing else has changed. -/
theorem run_host_turns_while_busy (first : List Access) (rest : List Turn) {s : State} (hbusy : s.busy = true)
    (hagenda : s.agenda = first.map .host ++ rest) (hnoReset : ∀ v, ctrlWrite v ∈ first → v.getLsbD 0 = false) :
    ∃ (u : State) (d : Nat), Host.Core.run core first.length s = .next u ∧
      u.lessErrors = State.lessErrors { s with agenda := rest, draws := d } := by
  induction first generalizing s with
  | nil =>
    refine ⟨s, s.draws, rfl, ?_⟩
    rw [List.map_nil, List.nil_append] at hagenda
    rw [← hagenda]
  | cons a first ih =>
    have hstep := step_of_host hagenda
    obtain ⟨d, ht⟩ := busAccess_while_busy (a := a) (s := { s with agenda := first.map .host ++ rest }) hbusy
      fun v hv => hnoReset v (hv ▸ List.mem_cons_self)
    generalize busAccess a _ = t at hstep ht
    have htaken : t.agenda = first.map .host ++ rest := by rw [← lessErrors_agenda, ht, lessErrors_agenda]
    have hwaiting : t.busy = true := by rwa [State.busy, ← lessErrors_pend, ht, lessErrors_pend]
    obtain ⟨u, d', hrun, hu⟩ := ih hwaiting htaken fun v hv => hnoReset v (List.mem_cons_of_mem a hv)
    refine ⟨u, d', (run_succ core _ s t hstep).trans hrun, hu.trans ?_⟩
    exact congrArg (fun x : State => { x with agenda := rest, draws := d' }) ht

/-- Settles O60: an induction on all turns for their end, and on the host's first turns for the command that waits. -/
theorem acceptedCommandsComplete : Obligations.AcceptedCommandsComplete := by
  refine ⟨fun s hinv => run_takes_every_turn s.agenda rfl hinv, ?_⟩
  intro s w i first rest hp hd hagenda hnext hnoReset
  obtain ⟨u, d, hrun, hu⟩ := run_host_turns_while_busy first rest ((busy_eq_true_iff s).mpr ⟨w, hp⟩) hagenda hnoReset
  have hpend : u.pend = some w := (congrArg State.pend hu).trans hp
  have htaken : u.agenda = rest := congrArg State.agenda hu
  have hstep : step u = exec i { u with agenda := rest.tail } := by
    obtain ⟨command, -⟩ := stepRunsThePendingCommand
    rw [command u w i (by rwa [htaken]) hpend hd, htaken]
  refine ⟨u, _, hrun, htaken, ?_, hstep, hstep.trans (exec_eq_performed i _), complete_busy _⟩
  exact congrArg (fun x : State => { x with agenda := s.agenda, draws := s.draws }) hu

/-! ### Power-on reset (R270, R271) -/

/-- Settles O57: nothing written, no command pending, every register 0. -/
theorem resetHasTheInvariant : Obligations.ResetHasTheInvariant :=
  ⟨wf_nil, Nat.zero_le _, rfl, rfl, fun _ => ⟨rfl, rfl⟩⟩

/-- Settles O47: the reset buffer lists no byte, and an unlisted byte reads as its free value. -/
theorem unwrittenBytesAreUnconstrained : Obligations.UnwrittenBytesAreUnconstrained :=
  ⟨written_nil, read_unwritten⟩

/-- While no command is pending, a legal access raises no error but those of a command word: illegal, or out of range. -/
theorem firstError_idle {s : State} {a : Access} (hp : s.pend = none) (hl : a.legal = true) :
    firstError s a = none ∨ firstError s a = some .cmd ∨ firstError s a = some .range := by
  have hidle := (busy_eq_false_iff s).mpr hp
  cases hop : a.op with
  | read => exact .inl (firstError_read hl hop)
  | write v =>
    rw [firstError_write hl hop, writeError, hidle, Bool.false_and, if_neg Bool.false_ne_true, commandError]
    cases decode v with
    | error _ => split <;> simp
    | ok i => cases i.wf <;> split <;> simp

/-- Such an access sets neither `ERR_BUS` nor `ERR_BUSY`. -/
theorem busAccess_idle_error {s : State} {a : Access} {e : ErrorBit} (hp : s.pend = none) (hl : a.legal = true)
    (hclear : s.error e = false) (hcmd : e ≠ .cmd) (hrange : e ≠ .range) : (busAccess a s).error e = false := by
  rcases busAccess_error s a with ⟨e', d, b, hfirst, h⟩ | ⟨-, hsets⟩
  · have hne : (e' == e) = false := by
      rcases firstError_idle hp hl with hf | hf | hf <;> rw [hf] at hfirst <;> cases hfirst
      exacts [beq_false_of_ne hcmd.symm, beq_false_of_ne hrange.symm]
    rw [h, respond_error, raise_error, hclear, hne, Bool.or_false]
  · rw [← Bool.not_eq_true]
    intro hset
    exact Bool.false_ne_true (hclear.symm.trans (hsets e hset))

/-- Settles O46: the values by evaluation; the first access by what a legal read and a legal write do to an idle block. -/
theorem powerOnResetValues : Obligations.PowerOnResetValues := by
  refine ⟨rfl, by decide, rfl, rfl, by decide, rfl, rfl, fin_zero, rfl, rfl, rfl, rfl, rfl, rfl, rfl, rfl, rfl, ?_,
    fun a hl => ⟨?_, busAccess_idle_error (e := .bus) rfl hl rfl (by decide) (by decide),
      busAccess_idle_error (e := .busy) rfl hl rfl (by decide) (by decide)⟩⟩
  · intro e
    cases e <;> rfl
  · obtain ⟨off, n, op⟩ := a
    cases op with
    | read =>
      rw [busAccess_legalRead hl]
      rfl
    | write v =>
      rw [busAccess_legalWrite hl]
      rfl

/-! ### Writes while a command is pending (R280) -/

/-- A write to the frame window while a command is pending is refused. -/
theorem performWrite_frame_busy {s : State} (hb : s.busy = true) (n k : Nat) (v : Word) :
    performWrite s n v (.frame k) = s.raise .busy := if_pos hb

/-- Outside the frame window only `CTRL`, `STATUS` and `CMD` take a write; any other aligned write is ignored. -/
theorem busAccess_write_ignored {s : State} {off : Offset} {v : Word} (h4 : off.toNat % 4 = 0)
    (houtside : off.toNat < 0x400 ∨ 0x800 ≤ off.toNat) (hoff : off ∉ [0x004#12, 0x008#12, 0x00C#12]) :
    busAccess ⟨off, 4, .write v⟩ s = { s with resp := some ⟨none, false⟩ } := by
  cases ht : targetAt off with
  | frame k =>
    obtain ⟨hlo, hhi, -⟩ := targetAt_frame_eq off k ht
    omega
  | reserved => exact busAccess_ignored (legal_of_aligned off _ h4) (by rw [ht, performWrite])
  | reg r =>
    have hr : off = BitVec.ofNat 12 (regOffset r) := by
      rw [← targetAt_reg_eq off r ht, BitVec.ofNat_toNat, BitVec.setWidth_eq]
    have unlisted {r' : Reg} (h : BitVec.ofNat 12 (regOffset r') ∈ [0x004#12, 0x008#12, 0x00C#12]) : r ≠ r' :=
      fun he => hoff (by rwa [hr, he])
    exact busAccess_readOnly r h4 ht ⟨unlisted (by decide), unlisted (by decide), unlisted (by decide)⟩

/-- Settles O50, a clause for each kind of offset. -/
theorem writesWhileBusy : Obligations.WritesWhileBusy := by
  intro s v hb
  obtain ⟨refused, -⟩ := issueHasOneOutcome
  refine ⟨refused s v hb, fun off n hlo hhi hl => ?frame, ?ctrl, ?status, fun off h4 houtside hoff => ?ignored⟩
  case frame =>
    rw [busAccess_legalWrite hl, targetAt_frame off hlo hhi, performWrite_frame_busy hb]
    rfl
  case ctrl =>
    rw [busAccess_ctrlWrite]
    split <;> rfl
  case status =>
    rw [busAccess_statusWrite]
    rfl
  case ignored =>
    rw [busAccess_write_ignored h4 houtside hoff]

/-! ### Reads while a command is pending (R281) -/

/-- Each bit of a read while a command is pending: the draw's where it is unspecified, else the exact one. -/
theorem readData_busy_getLsbD {s : State} (hb : s.busy = true) (n : Nat) (t : Target) {i : Nat} (hi : i < 32) :
    (readData s n t).getLsbD i
      = if (unspecifiedBits n t).getLsbD i then (Config.busyRead s.draws).getLsbD i else (readValue s n t).getLsbD i := by
  rw [readData, if_pos hb, BitVec.getLsbD_or, BitVec.getLsbD_and, BitVec.getLsbD_and, BitVec.getLsbD_not]
  cases (unspecifiedBits n t).getLsbD i <;> simp [hi]

/-- Where no bit is unspecified the read is exact. -/
theorem readData_of_specified (s : State) {n : Nat} {t : Target} (h : unspecifiedBits n t = 0) :
    readData s n t = readValue s n t := by
  unfold readData
  split
  · simp only [h, BitVec.ofNat_eq_ofNat, BitVec.and_zero, BitVec.or_zero, BitVec.not_zero, BitVec.and_allOnes]
  · rfl

/-- Where every bit is unspecified the read is the draw. -/
theorem readData_of_unspecified {s : State} (hb : s.busy = true) {n : Nat} {t : Target}
    (h : unspecifiedBits n t = BitVec.allOnes 32) : readData s n t = Config.busyRead s.draws := by
  apply BitVec.eq_of_getLsbD_eq
  intro i hi
  rw [readData_busy_getLsbD hb n t hi, h, BitVec.getLsbD_allOnes, if_pos (decide_eq_true hi)]

/-- An aligned 32-bit read of an offset, at any time. -/
theorem readsAs_readData (s : State) {off : Offset} {t : Target} (h4 : off.toNat % 4 = 0) (ht : targetAt off = t) :
    ReadsAs s off (readData s 4 t) :=
  ht ▸ busAccess_legalRead (legal_of_aligned off .read h4)

/-- The read of an offset with no unspecified bit. -/
theorem readsAs_of_specified (s : State) {off : Offset} {t : Target} (h4 : off.toNat % 4 = 0) (ht : targetAt off = t)
    (h : unspecifiedBits 4 t = 0) : ReadsAs s off (readValue s 4 t) :=
  readData_of_specified s h ▸ readsAs_readData s h4 ht

/-- The read, while a command is pending, of an offset with every bit unspecified. -/
theorem readsAs_of_unspecified {s : State} (hb : s.busy = true) {off : Offset} {t : Target} (h4 : off.toNat % 4 = 0)
    (ht : targetAt off = t) (h : unspecifiedBits 4 t = BitVec.allOnes 32) : ReadsAs s off (Config.busyRead s.draws) :=
  readData_of_unspecified hb h ▸ readsAs_readData s h4 ht

/-- Of `STATUS` bits 7:1 are unspecified: `TERM`, `SHORT`, `LONG` and `RESULT`. -/
theorem unspecifiedBits_status (i : Nat) (hi : i < 32) :
    (unspecifiedBits 4 (.reg .status)).getLsbD i = decide (1 ≤ i ∧ i < 8) := by
  revert i
  decide

/-- Outside bits 7:1 a read of `STATUS` is exact while a command is pending. -/
theorem readData_status_exact {s : State} (hb : s.busy = true) {i : Nat} (h : i = 0 ∨ 8 ≤ i) :
    (readData s 4 (.reg .status)).getLsbD i = (statusWord s).getLsbD i := by
  by_cases hi : i < 32
  · rw [readData_busy_getLsbD hb 4 _ hi, unspecifiedBits_status i hi, if_neg (by simp; omega)]
    rfl
  · rw [BitVec.getLsbD_of_ge _ i (by omega), BitVec.getLsbD_of_ge _ i (by omega)]

/-- In bits 7:1 a read of `STATUS` is the draw's while a command is pending. -/
theorem readData_status_free {s : State} (hb : s.busy = true) {i : Nat} (hlo : 1 ≤ i) (hhi : i < 8) :
    (readData s 4 (.reg .status)).getLsbD i = (Config.busyRead s.draws).getLsbD i := by
  rw [readData_busy_getLsbD hb 4 _ (by omega), unspecifiedBits_status i (by omega), if_pos (by simp; omega)]

/-- Settles O51: which bits of each target are unspecified; `STATUS` bit by bit, the frame window byte by byte. -/
theorem readsWhileBusy : Obligations.ReadsWhileBusy := by
  intro s hb
  refine ⟨readsAs_of_specified s rfl targetAt_id rfl, readsAs_of_specified s rfl targetAt_ctrl rfl,
    readsAs_of_specified s rfl targetAt_cmd rfl, readsAs_of_specified s rfl targetAt_param rfl,
    fun off h4 hoff => readsAs_of_specified s h4 (targetAt_reserved off hoff) rfl, fun off hoff => ?data,
    ⟨_, readsAs_readData s rfl targetAt_status, ?status⟩, fun off n hlo hhi hl => ⟨_, busAccess_legalRead hl, ?frame⟩⟩
  case data =>
    fin_cases hoff
    · exact readsAs_of_unspecified hb rfl targetAt_acc rfl
    · exact readsAs_of_unspecified hb rfl targetAt_digest rfl
    · exact readsAs_of_unspecified hb rfl targetAt_cnt rfl
    · exact readsAs_of_unspecified hb rfl targetAt_calcReg rfl
    · exact readsAs_of_unspecified hb rfl targetAt_rxfcs rfl
    · exact readsAs_of_unspecified hb rfl targetAt_plen rfl
  case status =>
    obtain ⟨hbusy, -, -, -, -, hcmd, hrange, hbusyError, hbus, hhigh⟩ := statusWordFields s
    refine ⟨?_, ?_, ?_, ?_, ?_, ?_, ?_⟩
    · rw [readData_status_exact hb (.inl rfl), hbusy, hb]
    · rw [readData_status_exact hb (.inr (by decide)), hcmd]
    · rw [readData_status_exact hb (.inr (by decide)), hrange]
    · rw [readData_status_exact hb (.inr (by decide)), hbusyError]
    · rw [readData_status_exact hb (.inr (by decide)), hbus]
    · rw [← hhigh]
      apply BitVec.eq_of_getLsbD_eq
      intro i hi
      rw [BitVec.getLsbD_extractLsb', BitVec.getLsbD_extractLsb', readData_status_exact hb (.inr (by omega))]
    · apply BitVec.eq_of_getLsbD_eq
      intro i hi
      rw [BitVec.getLsbD_extractLsb', BitVec.getLsbD_extractLsb', readData_status_free hb (by omega) (by omega)]
  case frame =>
    have hn := legal_frame_size off n .read hl
    rw [targetAt_frame off hlo hhi]
    exact ⟨fun k hk => readData_frame_busy s n _ k hb hk (by omega), readData_frame_high s n _⟩

end Sys2Proof.Machine
end

section
/-! A `CK.SPAN` beyond the buffer given to the engine, which no issue accepts (log 11). -/

namespace Sys2Proof.Machine

/-- Settles O14: the span fails the operand check, and a command that fails it only raises `ERR_RANGE` and completes. -/
theorem outOfRangeSpanPerformed : Obligations.OutOfRangeSpanPerformed := by
  intro s start len hbeyond
  rw [exec_eq_performed, performed_outOfRange s (wf_ckSpan_eq_false hbeyond)]
  rfl

end Sys2Proof.Machine
end
